-- ==== Sys2Proof/Word.lean ====
section
/-! DEFINITION. The word types of the GPIO register multiplexer (00_scope.md R6, 30_encoding.md R70, R73). -/

namespace Sys2Proof

/-- A register of the block: `REG_WIDTH = 32` bits (R6). -/
abbrev Word := BitVec 32

/-- The value of a 64-bit snapshot (R73, kind WORD64). -/
abbrev Word64 := BitVec 64

/-- A 32-bit register address (R8, R51). -/
abbrev Addr := BitVec 32

/-- A command word: every operation is one 16-bit value (R70). -/
abbrev CmdWord := BitVec 16

/-- `N_MAX`, the number of pins of the reference platform (R7). -/
abbrev nMax : Nat := 40

/-- `BOUNDARY`: pins below it are the low bank, the others the high bank (R7, 90_conflicts.md C1). -/
abbrev boundary : Nat := 32

/-- A pin that passed the range check: an index in [0, N_MAX) (R7, R15). -/
abbrev Pin := Fin nMax

/-- A bit position of a register, counted from the least significant bit (R10). -/
abbrev BitIndex := Fin 32

/-- One value for each pin in [0, N_MAX). -/
abbrev PinTable (α : Type) := Vector α nMax

end Sys2Proof
end

