-- ==== Sys2Proof/Syntax.lean ====
section
/-! DEFINITION. The names the block works with: registers, operations, the reasons a command word or an
operation is turned away, and the assembler's lines (00_scope.md R13, 30_encoding.md R70 to R84,
60_exceptions.md R138, R141, R146). -/

namespace Sys2Proof

/-- The two banks of pins (R15). -/
inductive Bank where
  | lo
  | hi
deriving DecidableEq, Repr

/-- The register names of R13: seven per bank and three per pin. -/
inductive Reg where
  | out (b : Bank)
  | outSet (b : Bank)
  | outClear (b : Bank)
  | enable (b : Bank)
  | enableSet (b : Bank)
  | enableClear (b : Bank)
  | input (b : Bank)
  | pinConfig (n : Pin)
  | funcSel (n : Pin)
  | ioMux (n : Pin)
deriving DecidableEq, Repr

/-- The primitives of the low-power controller that an operation can call (R148, R149). The fourth
primitive of R146, LP_CAPABLE, is a parameter and no call (R147). -/
inductive LpPrim where
  | detach
  | pullup
  | pulldown
deriving DecidableEq, Repr

/-- The ten operations (R5, R74), one constructor for each row of spec/opcode_table.json. `pin` is the
pin index of R71, which may be out of range; `en` and `level` are the bit V of R72. -/
inductive Instr where
  | reset (pin : Nat)
  | setPullup (pin : Nat) (en : Bool)
  | setPulldown (pin : Nat) (en : Bool)
  | setInputEnable (pin : Nat) (en : Bool)
  | setOutputEnable (pin : Nat) (en : Bool)
  | setOpenDrain (pin : Nat) (en : Bool)
  | setLevel (pin : Nat) (level : Bool)
  | getLevel (pin : Nat)
  | getAllInputs
  | getAllOutputs
deriving DecidableEq, Repr

/-- Why a command word spells no operation (R75 to R78, R141). -/
inductive CommandRefusal where
  /-- OP is 0xA to 0xF (R78). -/
  | reservedOp
  /-- Bits 11:9 or bits 7:6 are not all 0 (R75). -/
  | reservedBits
  /-- V is 1 on an operation without a value (R76). -/
  | reservedV
  /-- PIN is not 0 on an operation without a pin (R77). -/
  | reservedPin
deriving DecidableEq, Repr

/-- The fault reasons of R138, each with the pin it records; `Machine.faultCode` gives their codes. -/
inductive FaultReason where
  /-- PIN_OUT_OF_RANGE: `pin >= N_MAX` (R85). -/
  | pinOutOfRange (pin : Nat)
  /-- PIN_NOT_BONDED: `not BONDED(pin)` (R86). -/
  | pinNotBonded (pin : Nat)
  /-- IOMUX_UNMAPPED: `IO_MUX_OFFSET(pin) = NONE` (R92). -/
  | ioMuxUnmapped (pin : Nat)
deriving DecidableEq, Repr

/-- One line of assembler, its operands as written (R81): pins and enables are decimal integers, a level
is any integer (R82). -/
inductive AsmLine where
  | reset (pin : Int)
  | setPullup (pin enable : Int)
  | setPulldown (pin enable : Int)
  | setInputEnable (pin enable : Int)
  | setOutputEnable (pin enable : Int)
  | setOpenDrain (pin enable : Int)
  | setLevel (pin level : Int)
  | getLevel (pin : Int)
  | getAllInputs
  | getAllOutputs
deriving DecidableEq, Repr

end Sys2Proof
end

