-- ==== Sys2Proof/Config.lean ====
section
/-! DEFINITION. What the spec leaves to the implementation: the open parameters of 00_scope.md R8 as one
structure of plain data, the test configuration TC1 of 95_test_vectors.md, and the free values (draws) as
opaque constants nothing can evaluate. -/

namespace Sys2Proof

/-- One value for each bank. -/
structure Banked (α : Type) where
  lo : α
  hi : α
deriving DecidableEq, Repr

/-- The addresses `ADDR(name, b)` of the seven registers of one bank (R8, R51). -/
structure BankAddrs where
  out : Addr
  outSet : Addr
  outClear : Addr
  enable : Addr
  enableSet : Addr
  enableClear : Addr
  input : Addr
deriving DecidableEq, Repr

/-- A bit range [hi:lo] of a register (R8, R10). -/
structure BitRange where
  hi : BitIndex
  lo : BitIndex
deriving DecidableEq, Repr

/-- `POWER_ON(r)`: what a storage register holds at power-on, `none` where the parameter is UNKNOWN (R8,
R155). -/
structure PowerOn where
  out : Banked (Option Word)
  enable : Banked (Option Word)
  pinConfig : PinTable (Option Word)
  funcSel : PinTable (Option Word)
  ioMux : PinTable (Option Word)
deriving DecidableEq, Repr

/-- The open parameters of R8. The model takes them as an argument: they stand in the state and no step
changes them (R9, item 4). -/
structure Params where
  /-- `ADDR(r)`. -/
  addr : Banked BankAddrs
  /-- `PIN_CONFIG_ADDR(n)`. -/
  pinConfigAddr : PinTable Addr
  /-- `FUNC_SEL_ADDR(n)`. -/
  funcSelAddr : PinTable Addr
  /-- `IO_MUX_BASE`. -/
  ioMuxBase : Addr
  /-- `IO_MUX_OFFSET(n)`; `none` is the source's sentinel NONE (R14, R91). DESIGN CHOICE: an offset is 32 bits wide
  (notes/assumptions/19.md). -/
  ioMuxOffset : PinTable (Option Addr)
  /-- `PU_BIT`, the pull-up enable of IO_MUX (R31). -/
  puBit : BitIndex
  /-- `PD_BIT`, the pull-down enable of IO_MUX (R31). -/
  pdBit : BitIndex
  /-- `IE_BIT`, the input enable of IO_MUX (R31). -/
  ieBit : BitIndex
  /-- `DRV_FIELD`, the drive strength of IO_MUX (R31). -/
  drvField : BitRange
  /-- `MCU_SEL_FIELD`, the function routing of IO_MUX (R31). -/
  mcuSelField : BitRange
  /-- `OD_BIT`, the open-drain flag of PIN_CONFIG (R29). -/
  odBit : BitIndex
  /-- `FUNC_SEL_DISCONNECTED` (R30). -/
  funcSelDisconnected : Word
  /-- `IO_MUX_DEFAULT` (R101). -/
  ioMuxDefault : Word
  /-- `LP_CAPABLE(n)` (R94, R147). -/
  lpCapable : PinTable Bool
  /-- `BONDED(n)` (R86). -/
  bonded : PinTable Bool
  /-- `POWER_ON(r)` (R155). -/
  powerOn : PowerOn
deriving DecidableEq, Repr

namespace Config

/-- `STATUS_OK`, the status of a successful direct-register operation (R14). -/
def statusOk : Word := 0

/-- The value PIN_CONFIG(n) is given by RESET (R101, R159). -/
def pinConfigCleared : Word := 0

/-! The draws. Each is applied to the state's draw counter (or, at power-on, to the number of the register
or the pin), and nothing constrains its value. -/

/-- ENV's answers `PadLevel(n)` at the IN read that takes draw number k, one bit for each pin (R36, R49). -/
opaque padLevel : Nat → BitVec 40

/-- The bits that read as any value at the read that takes draw number k: bits 31..8 of a high-bank
register (R33), and the IN bits of unbonded and unmapped pins (R49). -/
opaque anyWord : Nat → Word

/-- The fresh IN_HOLD bit of the IO_MUX write that takes draw number k (R35, R45). -/
opaque holdBit : Nat → Bool

/-- The LP agent's status at the LpCall that takes draw number k (R150). -/
opaque lpStatus : Nat → Word

/-- Which enabled agent moves where several may and no schedule says which (R65), by draw number. -/
opaque agentChoice : Nat → Nat

/-- The power-on contents of storage register number i where POWER_ON gives none (R155). -/
opaque powerOnWord : Nat → Word

/-- IN_HOLD[n] at power-on, by pin (R35, R156). -/
opaque powerOnHold : Nat → Bool

/-! TC1 (95_test_vectors.md section 1; the addresses and the table are those of
93_implementation_defined.md G2 and G3). DESIGN CHOICE: the hardware's own values are in no source. -/

/-- A table made from a list of 40 entries. -/
def table {α : Type} (xs : List α) (h : xs.toArray.size = nMax) : PinTable α := ⟨xs.toArray, h⟩

/-- TC1's IO_MUX_OFFSET: NONE exactly for pins 24 and 28 to 31. -/
def tc1Offsets : PinTable (Option Addr) :=
  table
    [some 0x44, some 0x88, some 0x40, some 0x84, some 0x48, some 0x6C, some 0x60, some 0x64,
     some 0x68, some 0x54, some 0x58, some 0x5C, some 0x34, some 0x38, some 0x30, some 0x3C,
     some 0x4C, some 0x50, some 0x70, some 0x74, some 0x78, some 0x7C, some 0x80, some 0x8C,
     none, some 0x24, some 0x28, some 0x2C, none, none, none, none,
     some 0x1C, some 0x20, some 0x14, some 0x18, some 0x04, some 0x08, some 0x0C, some 0x10] rfl

/-- TC1's LP-capable pins. -/
def tc1LpPins : List Nat := [0, 2, 4, 12, 13, 14, 15, 25, 26, 27, 32, 33, 34, 35, 36, 37, 38, 39]

/-- The power-on contents `State.reset` takes: 0 for every storage register. DESIGN CHOICE: no source gives
one (91_not_in_source.md N8). -/
def zeroPowerOn : PowerOn where
  out := ⟨some 0, some 0⟩
  enable := ⟨some 0, some 0⟩
  pinConfig := Vector.replicate nMax (some 0)
  funcSel := Vector.replicate nMax (some 0)
  ioMux := Vector.replicate nMax (some 0)

/-- POWER_ON not given for any register (R155). -/
def unknownPowerOn : PowerOn where
  out := ⟨none, none⟩
  enable := ⟨none, none⟩
  pinConfig := Vector.replicate nMax none
  funcSel := Vector.replicate nMax none
  ioMux := Vector.replicate nMax none

/-- The test configuration TC1, with `zeroPowerOn`. DESIGN CHOICE: the parameters of `State.reset`. -/
def tc1 : Params where
  addr :=
    { lo := ⟨0x3FF44004, 0x3FF44008, 0x3FF4400C, 0x3FF44020, 0x3FF44024, 0x3FF44028, 0x3FF4403C⟩
      hi := ⟨0x3FF44010, 0x3FF44014, 0x3FF44018, 0x3FF4402C, 0x3FF44030, 0x3FF44034, 0x3FF44040⟩ }
  pinConfigAddr := Vector.ofFn fun n => BitVec.ofNat 32 (0x3FF44088 + 4 * n.val)
  funcSelAddr := Vector.ofFn fun n => BitVec.ofNat 32 (0x3FF44530 + 4 * n.val)
  ioMuxBase := 0x3FF49000
  ioMuxOffset := tc1Offsets
  puBit := 8
  pdBit := 7
  ieBit := 9
  drvField := ⟨11, 10⟩
  mcuSelField := ⟨14, 12⟩
  odBit := 2
  funcSelDisconnected := 0x100
  ioMuxDefault := 0x2800
  lpCapable := Vector.ofFn fun n => tc1LpPins.contains n.val
  bonded := Vector.replicate nMax true
  powerOn := zeroPowerOn

end Config

end Sys2Proof
end

