-- ==== Sys2Proof/Machine/Operands.lean ====
section
/-! DEFINITION. The pin-to-register address decoder: the checks before an operation's first access, the bank
and the bit of a pin, the address map, and the single-bit edits of a register's value (40_decoder.md R85 to
R99, 20_memory.md R51). Pure functions of the pin and the parameters (R95). -/

namespace Sys2Proof.Machine

/-- R85 then R86: the pin is in range, then bonded out. -/
def checkPin (p : Params) (pin : Nat) : Except FaultReason Pin :=
  if h : pin < nMax then
    if p.bonded.get ⟨pin, h⟩ then .ok ⟨pin, h⟩ else .error (.pinNotBonded pin)
  else .error (.pinOutOfRange pin)

/-- Whether IO_MUX(n) exists (R32, R91). -/
def isMapped (p : Params) (n : Pin) : Bool := (p.ioMuxOffset.get n).isSome

/-- R85, R86, then R92: the checks of an operation the source lists as IO_MUX-touching (R96). -/
def checkMuxPin (p : Params) (pin : Nat) : Except FaultReason Pin :=
  match checkPin p pin with
  | .error e => .error e
  | .ok n => if isMapped p n then .ok n else .error (.ioMuxUnmapped pin)

/-- The bank of a pin (R87). -/
def bankOf (n : Pin) : Bank := if n.val < boundary then .lo else .hi

/-- The bank-relative bit of a pin (R87, R88). -/
def bitOf (n : Pin) : BitIndex :=
  if h : n.val < boundary then ⟨n.val, h⟩ else ⟨n.val - boundary, by have := n.isLt; simp only [nMax, boundary] at *; omega⟩

/-- `resolve(pin) = (bank, bit)` (R87). -/
def resolve (n : Pin) : Bank × BitIndex := (bankOf n, bitOf n)

/-- `1 << k` (R11). -/
def bitMask (k : BitIndex) : Word := 1#32 <<< k.val

/-- `mask(pin) = 1 << bit` (R90). -/
def pinMask (n : Pin) : Word := bitMask (bitOf n)

/-- A register's value with bit k set (`w | (1 << k)`) or cleared (`w & ~(1 << k)`), the value a
read-modify-write operation writes back (R103, R104, R106, R107). -/
def editBit (w : Word) (k : BitIndex) (en : Bool) : Word :=
  if en then w ||| bitMask k else w &&& ~~~(bitMask k)

/-- The pin that bit i of a bank register stands for, if any (R24). -/
def pinAt (b : Bank) (i : BitIndex) : Option Pin :=
  match b with
  | .lo => some ⟨i.val, by have := i.isLt; simp only [nMax]; omega⟩
  | .hi => if h : boundary + i.val < nMax then some ⟨boundary + i.val, h⟩ else none

/-- The bits of a high-bank register that stand for pins: 7..0 (R7, R33). -/
def highPinBits : Word := 0xFF

/-- The register SET_OUTPUT_ENABLE writes (R89). -/
def enablePort (b : Bank) (en : Bool) : Reg := if en then .enableSet b else .enableClear b

/-- The register SET_LEVEL writes (R89). -/
def levelPort (b : Bank) (level : Bool) : Reg := if level then .outSet b else .outClear b

/-- The addresses of one bank's registers. -/
def bankAddrs (p : Params) (b : Bank) : BankAddrs :=
  match b with
  | .lo => p.addr.lo
  | .hi => p.addr.hi

/-- The address map (R51); `none` for the IO_MUX register of an unmapped pin, which does not exist (R32). DESIGN
CHOICE: IO_MUX_BASE + IO_MUX_OFFSET(n) is taken modulo 2^32 (notes/assumptions/19.md). -/
def addrOf (p : Params) : Reg → Option Addr
  | .out b => some (bankAddrs p b).out
  | .outSet b => some (bankAddrs p b).outSet
  | .outClear b => some (bankAddrs p b).outClear
  | .enable b => some (bankAddrs p b).enable
  | .enableSet b => some (bankAddrs p b).enableSet
  | .enableClear b => some (bankAddrs p b).enableClear
  | .input b => some (bankAddrs p b).input
  | .pinConfig n => some (p.pinConfigAddr.get n)
  | .funcSel n => some (p.funcSelAddr.get n)
  | .ioMux n =>
    match p.ioMuxOffset.get n with
    | some off => some (p.ioMuxBase + off)
    | none => none

/-- The seven register names of a bank. -/
def bankRegs (b : Bank) : List Reg :=
  [.out b, .outSet b, .outClear b, .enable b, .enableSet b, .enableClear b, .input b]

/-- Every register name (R13, R23). -/
def allRegs : List Reg :=
  bankRegs .lo ++ bankRegs .hi ++ (List.finRange nMax).map .pinConfig ++ (List.finRange nMax).map .funcSel
    ++ (List.finRange nMax).map .ioMux

/-- The addresses in use. -/
def allAddrs (p : Params) : List Addr := allRegs.filterMap (addrOf p)

/-- The register at an address, if the address map has one there (R51, R52). -/
def regAt (p : Params) (a : Addr) : Option Reg := allRegs.find? fun r => addrOf p r == some a

end Sys2Proof.Machine
end

