-- ==== Sys2Proof/WellFormed.lean ====
section
/-! DEFINITION. When an instruction can be written as a command word (30_encoding.md R71, R82), and when a
parameter set is admitted (00_scope.md R9). -/

namespace Sys2Proof

/-- The PIN field is 6 bits wide: a pin outside 0..63 cannot be encoded (R71, R82). -/
def Instr.wellFormed : Instr → Bool
  | .reset pin => pin < 64
  | .setPullup pin _ => pin < 64
  | .setPulldown pin _ => pin < 64
  | .setInputEnable pin _ => pin < 64
  | .setOutputEnable pin _ => pin < 64
  | .setOpenDrain pin _ => pin < 64
  | .setLevel pin _ => pin < 64
  | .getLevel pin => pin < 64
  | .getAllInputs => true
  | .getAllOutputs => true

/-- Whether bit k lies in the range [hi:lo]. -/
def BitRange.has (f : BitRange) (k : BitIndex) : Bool := f.lo ≤ k && k ≤ f.hi

/-- No address occurs twice. -/
def distinctNats : List Nat → Bool
  | [] => true
  | a :: as => !as.contains a && distinctNats as

/-- R9 item 1: PU_BIT, PD_BIT and IE_BIT are three different bits. -/
def Params.bitsDistinct (p : Params) : Bool :=
  p.puBit != p.pdBit && p.puBit != p.ieBit && p.pdBit != p.ieBit

/-- The two fields are ranges [hi:lo] with lo at most hi (R10). DEDUCED. -/
def Params.rangesOrdered (p : Params) : Bool :=
  p.drvField.lo ≤ p.drvField.hi && p.mcuSelField.lo ≤ p.mcuSelField.hi

/-- R9 item 1 (none of the three bits lies in DRV_FIELD), with the pairwise disjointness that
92_eei_decisions.md D5 reads in it for MCU_SEL_FIELD too. DEDUCED. -/
def Params.fieldsDisjoint (p : Params) : Bool :=
  !p.drvField.has p.puBit && !p.drvField.has p.pdBit && !p.drvField.has p.ieBit
    && !p.mcuSelField.has p.puBit && !p.mcuSelField.has p.pdBit && !p.mcuSelField.has p.ieBit
    && !p.drvField.has p.mcuSelField.lo && !p.mcuSelField.has p.drvField.lo

/-- R9 item 2: every IO_MUX offset that is not NONE is a multiple of 4. -/
def Params.offsetsAligned (p : Params) : Bool :=
  p.ioMuxOffset.toList.all fun o =>
    match o with
    | some off => off.toNat % 4 == 0
    | none => true

/-- R9 item 2: every register address is a multiple of 4. -/
def Params.addrsAligned (p : Params) : Bool :=
  (Machine.allAddrs p).all fun a => a.toNat % 4 == 0

/-- R9 item 3: all register addresses are distinct. -/
def Params.addrsDistinct (p : Params) : Bool :=
  distinctNats ((Machine.allAddrs p).map BitVec.toNat)

/-- R9: the parameter sets that are admitted. A set that breaks one of these is refused. (Item 4, that
LP_CAPABLE and BONDED are fixed, is a property of steps: no step changes a parameter.) -/
def Params.wellFormed (p : Params) : Bool :=
  p.bitsDistinct && p.rangesOrdered && p.fieldsDisjoint && p.offsetsAligned && p.addrsAligned
    && p.addrsDistinct

end Sys2Proof
end

