-- ==== Sys2Proof/Decode.lean ====
section
/-! DEFINITION. The decoder of a command word, total on all 16-bit values and refusing by name (30_encoding.md
R70 to R80), the encoder (R74, R82), the assembler's operand conversion (R82), and the host's reading of a row
of spec/opcode_table.json. -/

namespace Sys2Proof

/-- The field OP, bits 15:12 (R70). -/
def opField (cw : CmdWord) : BitVec 4 := cw.extractLsb' 12 4

/-- The field RSV_H, bits 11:9 (R70). -/
def rsvHField (cw : CmdWord) : BitVec 3 := cw.extractLsb' 9 3

/-- The field V, bit 8 (R72). -/
def vField (cw : CmdWord) : Bool := cw.getLsbD 8

/-- The field RSV_L, bits 7:6 (R70). -/
def rsvLField (cw : CmdWord) : BitVec 2 := cw.extractLsb' 6 2

/-- The field PIN, bits 5:0, zero-extended (R71). -/
def pinField (cw : CmdWord) : Nat := (cw.extractLsb' 0 6).toNat

/-- The operation an OP value selects, with its `pin` and `v` (R74, R78). -/
def decodeOp (op pin : Nat) (v : Bool) : Except CommandRefusal Instr :=
  match op with
  | 0x0 => .ok (.reset pin)
  | 0x1 => .ok (.setPullup pin v)
  | 0x2 => .ok (.setPulldown pin v)
  | 0x3 => .ok (.setInputEnable pin v)
  | 0x4 => .ok (.setOutputEnable pin v)
  | 0x5 => .ok (.setOpenDrain pin v)
  | 0x6 => .ok (.setLevel pin v)
  | 0x7 => .ok (.getLevel pin)
  | 0x8 => .ok .getAllInputs
  | 0x9 => .ok .getAllOutputs
  | _ => .error .reservedOp

/-- `op in {0x0, 0x7, 0x8, 0x9}`: the operations without a value (R76). -/
def takesNoValue (op : Nat) : Bool := op == 0x0 || op == 0x7 || op == 0x8 || op == 0x9

/-- `op in {0x8, 0x9}`: the operations without a pin (R77). -/
def takesNoPin (op : Nat) : Bool := op == 0x8 || op == 0x9

/-- `decode(cw)`, its refusals in the order of R80. -/
def decode (cw : CmdWord) : Except CommandRefusal Instr :=
  let op := (opField cw).toNat
  if 0xA ≤ op then .error .reservedOp
  else if rsvHField cw ≠ 0 ∨ rsvLField cw ≠ 0 then .error .reservedBits
  else if takesNoValue op && vField cw then .error .reservedV
  else if takesNoPin op && pinField cw != 0 then .error .reservedPin
  else decodeOp op (pinField cw) (vField cw)

/-- `cw = (OP << 12) | (V << 8) | PIN` (R82). -/
def commandWord (op : Nat) (v : Bool) (pin : Nat) : CmdWord :=
  (BitVec.ofNat 16 op <<< 12) ||| (BitVec.ofNat 16 v.toNat <<< 8) ||| BitVec.ofNat 16 pin

/-- The command word of a well-formed instruction (R74, R82). -/
def encode : Instr → CmdWord
  | .reset pin => commandWord 0x0 false pin
  | .setPullup pin en => commandWord 0x1 en pin
  | .setPulldown pin en => commandWord 0x2 en pin
  | .setInputEnable pin en => commandWord 0x3 en pin
  | .setOutputEnable pin en => commandWord 0x4 en pin
  | .setOpenDrain pin en => commandWord 0x5 en pin
  | .setLevel pin level => commandWord 0x6 level pin
  | .getLevel pin => commandWord 0x7 false pin
  | .getAllInputs => commandWord 0x8 false 0
  | .getAllOutputs => commandWord 0x9 false 0

/-- `<pin>` must be 0..63 (R82). -/
def asmPin (pin : Int) : Option Nat := if 0 ≤ pin ∧ pin < 64 then some pin.toNat else none

/-- `<enable>` must be 0 or 1 (R82). -/
def asmEnable (e : Int) : Option Bool := if e = 1 then some true else if e = 0 then some false else none

/-- `<level>` may be any integer: V = (level != 0) (R72, R82). -/
def asmLevel (level : Int) : Bool := level != 0

/-- A mnemonic with a pin. -/
def asmOne (f : Nat → Instr) (pin : Int) : Option Instr := (asmPin pin).map f

/-- A mnemonic with a pin and an enable. -/
def asmTwo (f : Nat → Bool → Instr) (pin enable : Int) : Option Instr :=
  match asmPin pin, asmEnable enable with
  | some n, some en => some (f n en)
  | _, _ => none

/-- The operation an assembler line stands for; `none` where the assembler rejects an operand (R82). -/
def AsmLine.toInstr : AsmLine → Option Instr
  | .reset pin => asmOne .reset pin
  | .setPullup pin e => asmTwo .setPullup pin e
  | .setPulldown pin e => asmTwo .setPulldown pin e
  | .setInputEnable pin e => asmTwo .setInputEnable pin e
  | .setOutputEnable pin e => asmTwo .setOutputEnable pin e
  | .setOpenDrain pin e => asmTwo .setOpenDrain pin e
  | .setLevel pin level => asmOne (fun n => .setLevel n (asmLevel level)) pin
  | .getLevel pin => asmOne .getLevel pin
  | .getAllInputs => some .getAllInputs
  | .getAllOutputs => some .getAllOutputs

/-- The command word an assembler line is assembled into (R82). -/
def assemble (l : AsmLine) : Option CmdWord := l.toInstr.map encode

/-- The instruction the decoder reads from a row's bits: every command word is 16 bits (R79), so bits above
the 16th that are not 0 spell nothing. -/
def decodeTableWord (nbits w : Nat) : Option Instr :=
  let bits := w % 2 ^ nbits
  if bits < 2 ^ 16 then
    match decode (BitVec.ofNat 16 bits) with
    | .ok i => some i
    | .error _ => none
  else none

end Sys2Proof
end

