-- ==== Sys2Proof/Machine/State.lean ====
section
/-! DEFINITION. The state of the block and of the agents that use it (10_state.md, 20_memory.md R65), the
reasons a step can stop, and the state after power-on (70_reset_and_hazards.md R155, R156). -/

namespace Sys2Proof.Machine

/-- A caller agent: OWNER, or CTX_i with i from 1 to k (R65). -/
inductive Agent where
  | owner
  | ctx (i : Nat)
deriving DecidableEq, Repr

/-- An operation's result (R73). A STATUS is a 32-bit signed integer, held as its bits. -/
inductive Result where
  | status (v : Word)
  | bit (v : Bool)
  | word64 (v : Word64)
deriving DecidableEq, Repr

/-- One atomic micro-step of an operation (R12, R55, R56). -/
inductive MicroStep where
  /-- `RegRead(r)`; the operation keeps the value read. -/
  | read (r : Reg)
  /-- `RegWrite(r, v)`. -/
  | write (r : Reg) (v : Word)
  /-- `RegWrite(r, w | (1 << k))` or `RegWrite(r, w & ~(1 << k))` for the value w the operation read. -/
  | writeBack (r : Reg) (k : BitIndex) (en : Bool)
  /-- `LpCall(prim, n [, en])`; the operation keeps the status returned. -/
  | call (prim : LpPrim) (n : Pin) (en : Option Bool)
deriving DecidableEq, Repr

/-- How an operation's result comes from the values its micro-steps returned. -/
inductive Finish where
  /-- `result <- STATUS_OK`. -/
  | ok
  /-- `result <- s`, the LP controller's status verbatim. -/
  | verbatim
  /-- `result <- w[bit]`. -/
  | inputBit (k : BitIndex)
  /-- `result <- hi ++ lo`. -/
  | snapshot
deriving DecidableEq, Repr

/-- An operation that passed its checks: its micro-steps in pseudocode order, and its result (R56). -/
structure Plan where
  steps : List MicroStep
  finish : Finish
deriving DecidableEq, Repr

/-- An operation between two of its micro-steps: the steps still to take and the values got so far (the
local values `let` and `<-` of R12). -/
structure InFlight where
  todo : List MicroStep
  finish : Finish
  got : List Word
deriving DecidableEq, Repr

/-- Why an agent takes no further step (R137 item 4, R141). -/
inductive Halt where
  | faulted (reason : FaultReason)
  | refused (reason : CommandRefusal)
deriving DecidableEq, Repr

/-- One caller agent (R65, R152): its finite list of command words, its index into the list, its RESULTS
(R39), the operation it is inside of, and whether it has stopped for good. -/
structure Caller where
  commands : List CmdWord
  index : Nat
  results : List Result
  inFlight : Option InFlight
  halted : Option Halt
deriving DecidableEq, Repr

/-- The record FAULT holds: (reason, agent, command index) (R37). -/
structure FaultRecord where
  reason : FaultReason
  agent : Agent
  index : Nat
deriving DecidableEq, Repr

/-- One entry of LP_LOG: (agent, primitive, pin, en, status returned); LP_DETACH has no en (R38). -/
structure LpEntry where
  agent : Agent
  prim : LpPrim
  pin : Pin
  en : Option Bool
  status : Word
deriving DecidableEq, Repr

/-- Which agent moves next and how far: one micro-step (R56), or all the micro-steps its operation still has,
with no other agent between. The second is that many turns of the first kind in a row. -/
inductive Turn where
  | microStep (a : Agent)
  | operation (a : Agent)
deriving DecidableEq, Repr

/-- The agent a turn belongs to. -/
def Turn.agent : Turn → Agent
  | .microStep a => a
  | .operation a => a

/-- The reasons a step answers with a fault. -/
inductive Fault where
  /-- Raised by `step` where no agent can move and FAULT is not empty: the run has failed (R69, R137, R154).
  Safe: the model claims nothing after it. -/
  | failedRun (r : FaultRecord)
  /-- Raised by a raw read or write of the IO_MUX register of an unmapped pin, which does not exist (R32); the answer
  itself is the model's, a DESIGN CHOICE (notes/assumptions/12.md). Safe:
  no operation produces it, because R92 comes first. -/
  | noSuchRegister (r : Reg)
deriving DecidableEq, Repr

/-- The reasons a step answers with a refusal. -/
inductive Refusal where
  /-- Raised by `exec` for an instruction without a meaning. No arm uses it. Safe. -/
  | notModelled (mnemonic : String)
  /-- Raised by `step` under a parameter set that breaks R9: refused, not modelled. Safe. -/
  | badParameters
  /-- Raised by a read of a set or clear port (R48). Safe: no operation produces it. -/
  | portRead (r : Reg)
  /-- Raised by a write to IN (R50). Safe: no operation produces it. -/
  | inputWrite (r : Reg)
  /-- Raised by `step` where no agent can move, FAULT is empty and the run has not ended: a command word was
  refused (R69, R141). Safe: the model claims nothing after it. -/
  | failedByRefusal
deriving DecidableEq, Repr

/-- The machine. -/
structure State where
  /-- The parameters of R8. -/
  params : Params
  /-- OUT[b] (R24). -/
  out : Banked Word
  /-- ENABLE[b] (R26). -/
  enable : Banked Word
  /-- PIN_CONFIG(n) (R29). -/
  pinConfig : PinTable Word
  /-- FUNC_SEL(n) (R30). -/
  funcSel : PinTable Word
  /-- IO_MUX(n) (R31); the entry of an unmapped pin is no register and nothing reads or writes it (R32). -/
  ioMux : PinTable Word
  /-- IN_HOLD[n] (R35). -/
  inHold : PinTable Bool
  /-- FAULT (R37). -/
  fault : Option FaultRecord
  /-- REFUSED (R37). -/
  refused : Bool
  /-- LP_LOG (R38). -/
  lpLog : List LpEntry
  /-- The caller OWNER (R65). -/
  owner : Caller
  /-- The callers CTX_1 .. CTX_k, in order (R65). -/
  contexts : List Caller
  /-- The model's own: the agent whose step this is. -/
  mover : Agent
  /-- The model's own: the order of the coming turns, as far as it is fixed. -/
  schedule : List Turn
  /-- The model's own: how many draws have been taken. -/
  draws : Nat
deriving DecidableEq, Repr

/-- A caller at its first command (R156). -/
def Caller.start (commands : List CmdWord) : Caller where
  commands := commands
  index := 0
  results := []
  inFlight := none
  halted := none

/-- The contents of storage register number i at power-on: POWER_ON where it is given, else a draw (R155). -/
def powerOnValue (given : Option Word) (i : Nat) : Word :=
  match given with
  | some v => v
  | none => Config.powerOnWord i

/-- The machine at power-on, under a parameter set, with the agents' command lists and an order of turns
(R155, R156, R157). The storage registers are numbered OUT[LO], OUT[HI], ENABLE[LO], ENABLE[HI], then
PIN_CONFIG(n), FUNC_SEL(n) and IO_MUX(n), so that each has a draw of its own. -/
def State.launch (p : Params) (owner : List CmdWord) (contexts : List (List CmdWord))
    (schedule : List Turn) : State where
  params := p
  out := ⟨powerOnValue p.powerOn.out.lo 0, powerOnValue p.powerOn.out.hi 1⟩
  enable := ⟨powerOnValue p.powerOn.enable.lo 2, powerOnValue p.powerOn.enable.hi 3⟩
  pinConfig := Vector.ofFn fun n => powerOnValue (p.powerOn.pinConfig.get n) (4 + n.val)
  funcSel := Vector.ofFn fun n => powerOnValue (p.powerOn.funcSel.get n) (44 + n.val)
  ioMux := Vector.ofFn fun n => powerOnValue (p.powerOn.ioMux.get n) (84 + n.val)
  inHold := Vector.ofFn fun n => Config.powerOnHold n.val
  fault := none
  refused := false
  lpLog := []
  owner := Caller.start owner
  contexts := contexts.map Caller.start
  mover := .owner
  schedule := schedule
  draws := 0

/-- The machine right after power-on with nothing placed: no caller has a command, and there is no caller
but OWNER. DESIGN CHOICE: the parameters are TC1's and POWER_ON is 0 for every register. -/
def State.reset : State := State.launch Config.tc1 [] [] []

end Sys2Proof.Machine
end

