-- ==== Sys2Proof/Machine/Flags.lean ====
section
/-! DEFINITION. What an operation returns. The block has no status flags or condition codes: the only outcome
information is an operation's result (10_state.md R22, 30_encoding.md R73). -/

namespace Sys2Proof.Machine

/-- `hi ++ lo` for two register values: bits 63..32 are hi, bits 31..0 are lo (R11, R120, R121). -/
def concat64 (hi lo : Word) : Word64 := hi ++ lo

/-- An operation's result from the values its micro-steps returned, in order (R101 to R121). -/
def finishResult (f : Finish) (got : List Word) : Result :=
  match f, got with
  | .ok, _ => .status Config.statusOk
  | .verbatim, got => .status (got.getLastD Config.statusOk)
  | .inputBit k, got => .bit ((got.getLastD 0).getLsbD k.val)
  | .snapshot, got => .word64 (concat64 (got.getLastD 0) (got.headD 0))

/-- A STATUS as the signed integer it is (R73). -/
def statusInt (v : Word) : Int := v.toInt

end Sys2Proof.Machine
end

