-- ==== Sys2Proof/Machine/Ops.lean ====
section
/-! DEFINITION. The named operations over the state: the registers (20_memory.md R45 to R50), the low-power
controller's calls (60_exceptions.md R150), the callers, raising a fault and refusing a command word (R137,
R141), and running an operation's micro-steps (R56). -/

namespace Sys2Proof.Machine

/-! Banks and pin tables. -/

/-- The value of a bank. -/
def bankGet {α : Type} (x : Banked α) (b : Bank) : α :=
  match b with
  | .lo => x.lo
  | .hi => x.hi

/-- The pair with one bank's value replaced. -/
def bankSet {α : Type} (x : Banked α) (b : Bank) (v : α) : Banked α :=
  match b with
  | .lo => { x with lo := v }
  | .hi => { x with hi := v }

/-- The table with one pin's value replaced. -/
def putPin {α : Type} (t : PinTable α) (n : Pin) (v : α) : PinTable α := t.set n.val v n.isLt

/-! The callers (R65, R152). -/

/-- Every caller agent: OWNER and CTX_1 .. CTX_k (R65). -/
def agents (s : State) : List Agent :=
  .owner :: (List.range s.contexts.length).map fun i => .ctx (i + 1)

/-- An agent's own state; an agent that does not exist has no commands. -/
def callerOf (s : State) : Agent → Caller
  | .owner => s.owner
  | .ctx 0 => Caller.start []
  | .ctx (i + 1) => s.contexts.getD i (Caller.start [])

/-- The state with an agent's own state replaced; nothing happens for an agent that does not exist. -/
def setCaller (s : State) (a : Agent) (c : Caller) : State :=
  match a with
  | .owner => { s with owner := c }
  | .ctx 0 => s
  | .ctx (i + 1) => { s with contexts := s.contexts.set i c }

/-- Whether there is such an agent. -/
def agentExists (s : State) : Agent → Bool
  | .owner => true
  | .ctx 0 => false
  | .ctx (i + 1) => decide (i < s.contexts.length)

/-- The caller with one more result, its index at its next command (R39, R65). -/
def completed (c : Caller) (r : Result) : Caller :=
  { c with results := c.results ++ [r], index := c.index + 1, inFlight := none }

/-- The moving agent's operation is over and returned r (R39, R73). -/
def complete (r : Result) (s : State) : State :=
  setCaller s s.mover (completed (callerOf s s.mover) r)

/-- The moving agent is now inside an operation, or in none. -/
def setInFlight (f : Option InFlight) (s : State) : State :=
  setCaller s s.mover { callerOf s s.mover with inFlight := f }

/-- The moving agent takes no further step (R137 item 4, R141). -/
def haltMover (h : Halt) (s : State) : State :=
  setCaller s s.mover { callerOf s s.mover with halted := some h }

/-- The code of a fault reason, the spec's numbering for the fault record (R138). -/
def faultCode : FaultReason → Nat
  | .pinOutOfRange _ => 1
  | .pinNotBonded _ => 2
  | .ioMuxUnmapped _ => 3

/-- The pin a fault reason records (R138). -/
def faultPin : FaultReason → Nat
  | .pinOutOfRange pin => pin
  | .pinNotBonded pin => pin
  | .ioMuxUnmapped pin => pin

/-- `raise Fault(reason)` (R137): FAULT is set if it is empty, no micro-step is performed, no result is
returned, and the agent takes no further step. The block has no trap: nothing is saved and there is no handler
and no return (R135, R140). -/
def raiseFault (reason : FaultReason) (s : State) : State :=
  haltMover (.faulted reason)
    { s with fault := s.fault.or (some ⟨reason, s.mover, (callerOf s s.mover).index⟩) }

/-- `refuse(reason)` (R141): REFUSED is set, and the agent takes no further step and gets no result. -/
def refuseCommand (reason : CommandRefusal) (s : State) : State :=
  haltMover (.refused reason) { s with refused := true }

/-! Draws. -/

/-- The state with one more draw taken. -/
def drawn (s : State) : State := { s with draws := s.draws + 1 }

/-! Register reads (R45, R48, R49). -/

/-- A high-bank register as read: bits 31..8 are any value (R33). -/
def withReserved (v any : Word) : Word := (v &&& highPinBits) ||| (any &&& ~~~highPinBits)

/-- Whether a pin's input is connected: it is bonded out and has an IO_MUX register (R49). -/
def hasInput (p : Params) (n : Pin) : Bool := p.bonded.get n && isMapped p n

/-- The input-enable bit of a pin (R31, R49). -/
def inputEnabled (s : State) (n : Pin) : Bool := (s.ioMux.get n).getLsbD s.params.ieBit.val

/-- Bit i of a read of IN[b]: any value, the pad level, or IN_HOLD (R49). -/
def inputBitAt (s : State) (b : Bank) (i : BitIndex) : Bool :=
  match pinAt b i with
  | none => (Config.anyWord s.draws).getLsbD i.val
  | some n =>
    if hasInput s.params n then
      if inputEnabled s n then (Config.padLevel s.draws).getLsbD n.val else s.inHold.get n
    else (Config.anyWord s.draws).getLsbD i.val

/-- The 32 bits a read of IN[b] returns (R49). -/
def inputWord (s : State) (b : Bank) : Word := BitVec.ofFnLE fun i => inputBitAt s b i

/-- A read of OUT[b] or ENABLE[b]: the stored bits, any value in the reserved bits of the high bank (R33,
R45). -/
def readStored (x : Banked Word) (b : Bank) (s : State) : Word :=
  match b with
  | .lo => x.lo
  | .hi => withReserved x.hi (Config.anyWord s.draws)

/-- `RegRead(r)`: the value and the state after, whose only difference is the draw counter of the model (R45,
R49, R60). A port has no read (R48), and the IO_MUX register of an unmapped pin does not exist (R32): raw access to it is a fault,
DESIGN CHOICE (notes/assumptions/12.md). -/
def readReg (r : Reg) (s : State) : Host.Outcome (Word × State) Fault Refusal :=
  match r with
  | .out b => .next (readStored s.out b s, drawn s)
  | .enable b => .next (readStored s.enable b s, drawn s)
  | .input b => .next (inputWord s b, drawn s)
  | .pinConfig n => .next (s.pinConfig.get n, s)
  | .funcSel n => .next (s.funcSel.get n, s)
  | .ioMux n => if isMapped s.params n then .next (s.ioMux.get n, s) else .fault (.noSuchRegister r)
  | .outSet _ => .refused (.portRead r)
  | .outClear _ => .refused (.portRead r)
  | .enableSet _ => .refused (.portRead r)
  | .enableClear _ => .refused (.portRead r)

/-! Register writes (R45 to R47, R50). -/

/-- A write to IO_MUX(n): all 32 bits, and IN_HOLD[n] is drawn afresh (R35, R45). -/
def writeIoMux (n : Pin) (v : Word) (s : State) : State :=
  drawn { s with ioMux := putPin s.ioMux n v, inHold := putPin s.inHold n (Config.holdBit s.draws) }

/-- `RegWrite(r, v)`. A write to IN is refused (R50), and the IO_MUX register of an unmapped pin does not
exist (R32; raw access to it is a fault by DESIGN CHOICE, notes/assumptions/12.md). -/
def writeReg (r : Reg) (v : Word) (s : State) : Host.Outcome State Fault Refusal :=
  match r with
  | .out b => .next { s with out := bankSet s.out b v }
  | .outSet b => .next { s with out := bankSet s.out b (bankGet s.out b ||| v) }
  | .outClear b => .next { s with out := bankSet s.out b (bankGet s.out b &&& ~~~v) }
  | .enable b => .next { s with enable := bankSet s.enable b v }
  | .enableSet b => .next { s with enable := bankSet s.enable b (bankGet s.enable b ||| v) }
  | .enableClear b => .next { s with enable := bankSet s.enable b (bankGet s.enable b &&& ~~~v) }
  | .input _ => .refused (.inputWrite r)
  | .pinConfig n => .next { s with pinConfig := putPin s.pinConfig n v }
  | .funcSel n => .next { s with funcSel := putPin s.funcSel n v }
  | .ioMux n => if isMapped s.params n then .next (writeIoMux n v s) else .fault (.noSuchRegister r)

/-! The low-power controller (R146 to R150). -/

/-- The status the LP agent answers the next LpCall with: any value (R150). -/
def lpAnswer (s : State) : Word := Config.lpStatus s.draws

/-- `LpCall(prim, n [, en])`: one entry of LP_LOG, and no register of the block changes (R149, R150). -/
def lpCall (prim : LpPrim) (n : Pin) (en : Option Bool) (s : State) : State :=
  drawn { s with lpLog := s.lpLog ++ [⟨s.mover, prim, n, en, lpAnswer s⟩] }

/-! Running micro-steps (R55, R56, R62). -/

/-- Goes on from a next state, and keeps a fault or a refusal. -/
def andThen {α β : Type} (o : Host.Outcome α Fault Refusal) (f : α → Host.Outcome β Fault Refusal) :
    Host.Outcome β Fault Refusal :=
  match o with
  | .next x => f x
  | .fault e => .fault e
  | .refused e => .refused e

/-- One micro-step of an operation that got the values `got` before: the values it has got after, and the state
after. -/
def perform (m : MicroStep) (got : List Word) (s : State) :
    Host.Outcome (List Word × State) Fault Refusal :=
  match m with
  | .read r => andThen (readReg r s) fun x => .next (got ++ [x.1], x.2)
  | .write r v => andThen (writeReg r v s) fun s' => .next (got, s')
  | .writeBack r k en => andThen (writeReg r (editBit (got.getLastD 0) k en) s) fun s' => .next (got, s')
  | .call prim n en => .next (got ++ [lpAnswer s], lpCall prim n en s)

/-- All the micro-steps an operation still has, in order, with no other agent's step between, and its
completion. -/
def runSteps (finish : Finish) : List MicroStep → List Word → State → Host.Outcome State Fault Refusal
  | [], got, s => .next (complete (finishResult finish got) s)
  | m :: ms, got, s => andThen (perform m got s) fun x => runSteps finish ms x.1 x.2

/-- An operation from its first micro-step to its completion by the moving agent: its checks' fault, or all of
its micro-steps (R96, R137). -/
def operate (plan : Except FaultReason Plan) (s : State) : Host.Outcome State Fault Refusal :=
  match plan with
  | .error reason => .next (raiseFault reason s)
  | .ok p => runSteps p.finish p.steps [] s

end Sys2Proof.Machine
end

