-- ==== Sys2Proof/Machine/BankAccess.lean ====
section
/-! DEFINITION. The output-enable and level bit accessors (42_bank_accessors.md R115 to R124). Each operation
has a plan (its checks and its micro-steps) and a meaning, which runs the plan. -/

namespace Sys2Proof.Machine

/-! SET_OUTPUT_ENABLE (R116). -/

/-- R116: one write of the pin's mask to the set or the clear port of its bank (R58, R89). -/
def planSetOutputEnable (p : Params) (pin : Nat) (en : Bool) : Except FaultReason Plan :=
  match checkPin p pin with
  | .error e => .error e
  | .ok n => .ok { steps := [.write (enablePort (bankOf n) en) (pinMask n)], finish := .ok }

/-- SET_OUTPUT_ENABLE (R116). -/
def execSetOutputEnable (pin : Nat) (en : Bool) (s : State) : Host.Outcome State Fault Refusal :=
  operate (planSetOutputEnable s.params pin en) s

/-! SET_LEVEL (R117, R118). -/

/-- The one write of SET_LEVEL: the pin's mask to the set or the clear port of OUT (R58, R89). It is also the
last step of RESET (R101). -/
def setLevelSteps (n : Pin) (level : Bool) : List MicroStep :=
  [.write (levelPort (bankOf n) level) (pinMask n)]

/-- R117. ENABLE is not looked at (R118). -/
def planSetLevel (p : Params) (pin : Nat) (level : Bool) : Except FaultReason Plan :=
  match checkPin p pin with
  | .error e => .error e
  | .ok n => .ok { steps := setLevelSteps n level, finish := .ok }

/-- SET_LEVEL (R117). -/
def execSetLevel (pin : Nat) (level : Bool) (s : State) : Host.Outcome State Fault Refusal :=
  operate (planSetLevel s.params pin level) s

/-! GET_LEVEL (R119). -/

/-- R119: one read of the bank's IN, and the pin's bit of it. -/
def planGetLevel (p : Params) (pin : Nat) : Except FaultReason Plan :=
  match checkPin p pin with
  | .error e => .error e
  | .ok n => .ok { steps := [.read (.input (bankOf n))], finish := .inputBit (bitOf n) }

/-- GET_LEVEL (R119). -/
def execGetLevel (pin : Nat) (s : State) : Host.Outcome State Fault Refusal :=
  operate (planGetLevel s.params pin) s

/-! GET_ALL_INPUTS (R120). -/

/-- R120: IN[LO], then IN[HI] (R59). -/
def planGetAllInputs : Except FaultReason Plan :=
  .ok { steps := [.read (.input .lo), .read (.input .hi)], finish := .snapshot }

/-- GET_ALL_INPUTS (R120). -/
def execGetAllInputs (s : State) : Host.Outcome State Fault Refusal := operate planGetAllInputs s

/-! GET_ALL_OUTPUTS (R121). -/

/-- R121: OUT[LO], then OUT[HI] (R59). -/
def planGetAllOutputs : Except FaultReason Plan :=
  .ok { steps := [.read (.out .lo), .read (.out .hi)], finish := .snapshot }

/-- GET_ALL_OUTPUTS (R121). -/
def execGetAllOutputs (s : State) : Host.Outcome State Fault Refusal := operate planGetAllOutputs s

end Sys2Proof.Machine
end

