-- ==== Sys2Proof/Machine/PinConfig.lean ====
section
/-! DEFINITION. The pin configuration operations (41_pin_config.md R100 to R110). Each operation has a plan (its
checks and its micro-steps) and a meaning, which runs the plan. -/

namespace Sys2Proof.Machine

/-! RESET (R101, R102). -/

/-- The three calls that release an LP-capable pin: detach, pull-up on, pull-down off, their statuses
discarded (R101, 92_eei_decisions.md D25). -/
def releaseSteps (n : Pin) : List MicroStep :=
  [.call .detach n none, .call .pullup n (some true), .call .pulldown n (some false)]

/-- The three digital defaults, in the source's order (R101). -/
def defaultSteps (p : Params) (n : Pin) : List MicroStep :=
  [.write (.pinConfig n) Config.pinConfigCleared, .write (.funcSel n) p.funcSelDisconnected,
   .write (.ioMux n) p.ioMuxDefault]

/-- R101: the release of an LP-capable pin before every digital write, the defaults, and last the output level
(R62). -/
def planReset (p : Params) (pin : Nat) : Except FaultReason Plan :=
  match checkMuxPin p pin with
  | .error e => .error e
  | .ok n =>
    .ok { steps := (if p.lpCapable.get n then releaseSteps n else []) ++ defaultSteps p n ++ setLevelSteps n false
          finish := .ok }

/-- RESET (R101). -/
def execReset (pin : Nat) (s : State) : Host.Outcome State Fault Refusal :=
  operate (planReset s.params pin) s

/-! SET_PULLUP and SET_PULLDOWN (R103, R104, R105). -/

/-- A read-modify-write of one bit of a register: two micro-steps (R57). -/
def modifyBit (r : Reg) (k : BitIndex) (en : Bool) : Plan :=
  { steps := [.read r, .writeBack r k en], finish := .ok }

/-- A pull request: to the LP controller for an LP-capable pin, its status being the result, and to the pin's
IO_MUX bit otherwise (R94, R103, R104). -/
def planPull (p : Params) (prim : LpPrim) (k : BitIndex) (pin : Nat) (en : Bool) : Except FaultReason Plan :=
  match checkMuxPin p pin with
  | .error e => .error e
  | .ok n =>
    if p.lpCapable.get n then .ok { steps := [.call prim n (some en)], finish := .verbatim }
    else .ok (modifyBit (.ioMux n) k en)

/-- R103. -/
def planSetPullup (p : Params) (pin : Nat) (en : Bool) : Except FaultReason Plan :=
  planPull p .pullup p.puBit pin en

/-- SET_PULLUP (R103). -/
def execSetPullup (pin : Nat) (en : Bool) (s : State) : Host.Outcome State Fault Refusal :=
  operate (planSetPullup s.params pin en) s

/-- R104. -/
def planSetPulldown (p : Params) (pin : Nat) (en : Bool) : Except FaultReason Plan :=
  planPull p .pulldown p.pdBit pin en

/-- SET_PULLDOWN (R104). -/
def execSetPulldown (pin : Nat) (en : Bool) (s : State) : Host.Outcome State Fault Refusal :=
  operate (planSetPulldown s.params pin en) s

/-! SET_INPUT_ENABLE (R106). -/

/-- R106: never delegated, also for an LP-capable pin. -/
def planSetInputEnable (p : Params) (pin : Nat) (en : Bool) : Except FaultReason Plan :=
  match checkMuxPin p pin with
  | .error e => .error e
  | .ok n => .ok (modifyBit (.ioMux n) p.ieBit en)

/-- SET_INPUT_ENABLE (R106). -/
def execSetInputEnable (pin : Nat) (en : Bool) (s : State) : Host.Outcome State Fault Refusal :=
  operate (planSetInputEnable s.params pin en) s

/-! SET_OPEN_DRAIN (R107). -/

/-- R107: no IO_MUX check, because PIN_CONFIG(n) exists for every pin (R93). -/
def planSetOpenDrain (p : Params) (pin : Nat) (en : Bool) : Except FaultReason Plan :=
  match checkPin p pin with
  | .error e => .error e
  | .ok n => .ok (modifyBit (.pinConfig n) p.odBit en)

/-- SET_OPEN_DRAIN (R107). -/
def execSetOpenDrain (pin : Nat) (en : Bool) (s : State) : Host.Outcome State Fault Refusal :=
  operate (planSetOpenDrain s.params pin en) s

end Sys2Proof.Machine
end

