-- ==== Sys2Proof/Machine/Dispatch.lean ====
section
/-! DEFINITION. The meaning of each operation, one arm for each row of spec/opcode_table.json (30_encoding.md
R74). An operation is run by the state's moving agent, whole, with no other agent's step between its
micro-steps; `step` also takes the micro-steps one at a time (Machine/Turns.lean). -/

namespace Sys2Proof.Machine

def exec (i : Instr) (s : State) : Host.Outcome State Fault Refusal :=
  match i with
  | .reset pin => Sys2Proof.Machine.execReset pin s
  | .setPullup pin en => Sys2Proof.Machine.execSetPullup pin en s
  | .setPulldown pin en => Sys2Proof.Machine.execSetPulldown pin en s
  | .setInputEnable pin en => Sys2Proof.Machine.execSetInputEnable pin en s
  | .setOutputEnable pin en => Sys2Proof.Machine.execSetOutputEnable pin en s
  | .setOpenDrain pin en => Sys2Proof.Machine.execSetOpenDrain pin en s
  | .setLevel pin level => Sys2Proof.Machine.execSetLevel pin level s
  | .getLevel pin => Sys2Proof.Machine.execGetLevel pin s
  | .getAllInputs => Sys2Proof.Machine.execGetAllInputs s
  | .getAllOutputs => Sys2Proof.Machine.execGetAllOutputs s

end Sys2Proof.Machine
end

