-- ==== Sys2Proof/Machine/Turns.lean ====
section
/-! DEFINITION. How the agents take turns (20_memory.md R55, R56, R61, R65, R69): which agent may move, which
one moves, one micro-step of its operation or all that are left, and what a step is where no agent may move. -/

namespace Sys2Proof.Machine

/-- An operation's checks and micro-steps under the parameters: what `exec` runs whole (`operate`) and a
micro-step turn runs one at a time. -/
def planOf (p : Params) : Instr → Except FaultReason Plan
  | .reset pin => planReset p pin
  | .setPullup pin en => planSetPullup p pin en
  | .setPulldown pin en => planSetPulldown p pin en
  | .setInputEnable pin en => planSetInputEnable p pin en
  | .setOutputEnable pin en => planSetOutputEnable p pin en
  | .setOpenDrain pin en => planSetOpenDrain p pin en
  | .setLevel pin level => planSetLevel p pin level
  | .getLevel pin => planGetLevel p pin
  | .getAllInputs => planGetAllInputs
  | .getAllOutputs => planGetAllOutputs

/-- A caller that has not stopped and has a command left, or is inside one (R65). -/
def callerEnabled (c : Caller) : Bool :=
  c.halted.isNone && (c.inFlight.isSome || decide (c.index < c.commands.length))

/-- An agent that may take the next step (R65). -/
def enabled (s : State) (a : Agent) : Bool := agentExists s a && callerEnabled (callerOf s a)

/-- The agents that may take the next step. -/
def enabledAgents (s : State) : List Agent := (agents s).filter (enabled s)

/-- The first turn of an order whose agent may move, and the turns after it. -/
def firstTurn (s : State) : List Turn → Option (Turn × List Turn)
  | [] => none
  | t :: ts => if enabled s t.agent then some (t, ts) else firstTurn s ts

/-- One of a nonempty list of agents, by number. -/
def chooseAgent (k : Nat) (a : Agent) (others : List Agent) : Agent :=
  (a :: others).getD (k % (others.length + 1)) a

/-- The turn taken next, and the state with that agent moving: the schedule's first turn whose agent may move;
where the schedule names none, the only agent that may move, or any one of them by a free choice (R65). -/
def nextTurn (s : State) : Option (Turn × State) :=
  match firstTurn s s.schedule with
  | some (t, ts) => some (t, { s with schedule := ts, mover := t.agent })
  | none =>
    match enabledAgents s with
    | [] => none
    | [a] => some (.operation a, { s with schedule := [], mover := a })
    | a :: b :: others =>
      let c := chooseAgent (Config.agentChoice s.draws) a (b :: others)
      some (.microStep c, drawn { s with schedule := [], mover := c })

/-- The moving agent's next command word (R65). -/
def fetch (s : State) : Option CmdWord :=
  (callerOf s s.mover).commands[(callerOf s s.mover).index]?

/-- The next micro-step of an operation. With its last one the operation returns its result. -/
def advance (f : InFlight) (s : State) : Host.Outcome State Fault Refusal :=
  match f.todo with
  | [] => .next (complete (finishResult f.finish f.got) s)
  | m :: ms =>
    andThen (perform m f.got s) fun x =>
      match ms with
      | [] => .next (complete (finishResult f.finish x.1) x.2)
      | _ :: _ => .next (setInFlight (some ⟨ms, f.finish, x.1⟩) x.2)

/-- The first micro-step of an operation, after its checks, which take none (R56, R96). -/
def startOperation (plan : Except FaultReason Plan) (s : State) : Host.Outcome State Fault Refusal :=
  match plan with
  | .error reason => .next (raiseFault reason s)
  | .ok p => advance ⟨p.steps, p.finish, []⟩ s

/-- A turn of one micro-step of the moving agent (R56). A refused command word and a failed check take no
micro-step and stop the agent (R137, R141). -/
def runMicroStep (s : State) : Host.Outcome State Fault Refusal :=
  match (callerOf s s.mover).inFlight with
  | some f => advance f s
  | none =>
    match fetch s with
    | none => .next s
    | some cw =>
      match decode cw with
      | .error reason => .next (refuseCommand reason s)
      | .ok i => startOperation (planOf s.params i) s

/-- A turn of all the micro-steps the moving agent's operation has left; of its next command, where it is in
none. -/
def runOperation (s : State) : Host.Outcome State Fault Refusal :=
  match (callerOf s s.mover).inFlight with
  | some f => runSteps f.finish f.todo f.got s
  | none =>
    match fetch s with
    | none => .next s
    | some cw =>
      match decode cw with
      | .error reason => .next (refuseCommand reason s)
      | .ok i => exec i s

/-- A turn of the moving agent. -/
def takeTurn (t : Turn) (s : State) : Host.Outcome State Fault Refusal :=
  match t with
  | .microStep _ => runMicroStep s
  | .operation _ => runOperation s

/-- A caller that completed every command of its list (R69). -/
def callerDone (c : Caller) : Bool := c.inFlight.isNone && decide (c.commands.length ≤ c.index)

/-- The run has ended: every caller completed its list, FAULT is empty and REFUSED is false (R69). -/
def ended (s : State) : Bool :=
  (agents s).all (fun a => callerDone (callerOf s a)) && s.fault.isNone && !s.refused

/-- A step where no agent may move. An ended run stays as it is (DESIGN CHOICE: R69 gives it no step); a failed
one answers with its failure (R69, R137, R141). -/
def stopped (s : State) : Host.Outcome State Fault Refusal :=
  if ended s then .next s
  else
    match s.fault with
    | some r => .fault (.failedRun r)
    | none => .refused .failedByRefusal

/-- Whether the run has failed: FAULT or REFUSED is set, for good (R37, R69). -/
def failed (s : State) : Bool := s.fault.isSome || s.refused

/-- The state whose next turn is OWNER's whole operation: unchanged where that is so already. -/
def ownerNext (s : State) : State :=
  if s.schedule = [] ∧ enabledAgents s = [.owner] then s
  else { s with schedule := .operation .owner :: s.schedule }

/-- A caller whose next command is w: w stands in its list at its index, the caller is inside no operation and
not stopped. -/
def placeCommand (w : CmdWord) (c : Caller) : Caller :=
  { c with
    commands := (c.commands ++ List.replicate c.index 0).take c.index ++ w :: c.commands.drop (c.index + 1)
    inFlight := none
    halted := none }

end Sys2Proof.Machine
end

