-- ==== Sys2Proof/Machine/Step.lean ====
section
/-! DEFINITION. One step of the machine: one turn of one agent (20_memory.md R61, R65). -/

namespace Sys2Proof.Machine

/-- One step: refused under parameters that R9 does not admit; the next turn of an agent that may move; and
where there is none, an ended or a failed run (R69). -/
def step (s : State) : Host.Outcome State Fault Refusal :=
  if s.params.wellFormed then
    match nextTurn s with
    | some (t, s') => takeTurn t s'
    | none => stopped s
  else .refused .badParameters

/-- s with the command word w, of nbits bits, as OWNER's next command, and OWNER's whole operation as the next
turn: the load of a program from outside. The schedule changes only where another agent's turn, or a turn of one
micro-step, would come first. -/
def State.withFetchWord (s : State) (nbits w : Nat) : State :=
  ownerNext { s with owner := placeCommand (BitVec.ofNat 16 (w % 2 ^ nbits)) s.owner }

end Sys2Proof.Machine
end

