-- ==== Sys2Proof/Machine/Assembler.lean ====
section
/-! DEFINITION. The assembler's text form (30_encoding.md R81 to R83): one operation a line, lower-case
mnemonics, comma-separated operands, decimal integers, an optional agent prefix, `;` starting a comment. Text is
a list of characters. -/

namespace Sys2Proof.Machine

/-- The text before the comment (R81). -/
def stripComment (cs : List Char) : List Char := cs.takeWhile (· != ';')

/-- A blank between tokens. -/
def isBlank (c : Char) : Bool := c == ' ' || c == '\t'

/-- The text without blanks at either end. -/
def trim (cs : List Char) : List Char := ((cs.dropWhile isBlank).reverse.dropWhile isBlank).reverse

/-- The pieces between commas. -/
def splitComma : List Char → List (List Char)
  | [] => [[]]
  | c :: cs =>
    match splitComma cs with
    | [] => [[c]]
    | piece :: pieces => if c == ',' then [] :: piece :: pieces else (c :: piece) :: pieces

/-- The value of a decimal digit. -/
def digit (c : Char) : Option Nat := if '0' ≤ c ∧ c ≤ '9' then some (c.toNat - 48) else none

/-- The number whose decimal digits follow those of `acc`. -/
def digits (acc : Nat) : List Char → Option Nat
  | [] => some acc
  | c :: cs =>
    match digit c with
    | some d => digits (10 * acc + d) cs
    | none => none

/-- A decimal number of at least one digit. -/
def parseNat (cs : List Char) : Option Nat := if cs.isEmpty then none else digits 0 cs

/-- A decimal integer. -/
def parseInt (cs : List Char) : Option Int :=
  match cs with
  | '-' :: rest => (parseNat rest).map fun n => -(n : Int)
  | _ => (parseNat cs).map fun n => (n : Int)

/-- Every operand of a list, or nothing. -/
def parseOperands : List (List Char) → Option (List Int)
  | [] => some []
  | x :: xs =>
    match parseInt (trim x), parseOperands xs with
    | some n, some ns => some (n :: ns)
    | _, _ => none

/-- The line a mnemonic and its operands spell (R81). There are no pseudo-instructions (R83). -/
def lineOf (mnemonic : List Char) (operands : List Int) : Option AsmLine :=
  match operands with
  | [] =>
    if mnemonic == "get_all_inputs".toList then some .getAllInputs
    else if mnemonic == "get_all_outputs".toList then some .getAllOutputs
    else none
  | [pin] =>
    if mnemonic == "reset".toList then some (.reset pin)
    else if mnemonic == "get_level".toList then some (.getLevel pin)
    else none
  | [pin, v] =>
    if mnemonic == "set_pullup".toList then some (.setPullup pin v)
    else if mnemonic == "set_pulldown".toList then some (.setPulldown pin v)
    else if mnemonic == "set_input_enable".toList then some (.setInputEnable pin v)
    else if mnemonic == "set_output_enable".toList then some (.setOutputEnable pin v)
    else if mnemonic == "set_open_drain".toList then some (.setOpenDrain pin v)
    else if mnemonic == "set_level".toList then some (.setLevel pin v)
    else none
  | _ => none

/-- One operation's text: a mnemonic and its operands. -/
def parseOperation (cs : List Char) : Option AsmLine :=
  let t := trim cs
  let mnemonic := t.takeWhile fun c => !isBlank c
  let rest := trim (t.drop mnemonic.length)
  if rest.isEmpty then lineOf mnemonic []
  else
    match parseOperands (splitComma rest) with
    | some ns => lineOf mnemonic ns
    | none => none

/-- An agent prefix, `OWNER` or `CTX<i>` (R81). -/
def parseAgent (cs : List Char) : Option Agent :=
  match trim cs with
  | 'C' :: 'T' :: 'X' :: i => (parseNat i).bind fun n => if n = 0 then none else some (.ctx n)
  | t => if t == "OWNER".toList then some .owner else none

/-- One line: the agent whose command list it belongs to, and its operation. A line without a prefix is
OWNER's. DESIGN CHOICE. -/
def parseLine (cs : List Char) : Option (Agent × AsmLine) :=
  let t := stripComment cs
  if t.contains ':' then
    match parseAgent (t.takeWhile (· != ':')), parseOperation ((t.dropWhile (· != ':')).drop 1) with
    | some a, some l => some (a, l)
    | _, _ => none
  else (parseOperation t).map fun l => (.owner, l)

/-- The command list an agent gets from a program's lines, in order; `none` where a line of its does not
assemble (R65, R81, R82). -/
def commandList (a : Agent) : List (Agent × AsmLine) → Option (List CmdWord)
  | [] => some []
  | (b, l) :: rest =>
    match commandList a rest with
    | none => none
    | some ws => if a = b then (assemble l).map fun w => w :: ws else some ws

end Sys2Proof.Machine
end

