-- ==== Sys2Proof/Safety.lean ====
section
/-! DEFINITION. What claims about a run may read (20_memory.md R68), which operations make which checks
(40_decoder.md R98), the invariant of the agents' records, and a bound on the turns a run still has
(70_reset_and_hazards.md R171). -/

namespace Sys2Proof.Machine

/-! The observation (R68). -/

/-- What a claim about a run may read: the registers of R23, LP_LOG, the RESULTS of every agent, FAULT with
its code (R138), and REFUSED (R68). IN and IN_HOLD are seen only through results. -/
structure Observation where
  out : Banked Word
  enable : Banked Word
  pinConfig : List Word
  funcSel : List Word
  ioMux : List (Option Word)
  lpLog : List LpEntry
  results : List (List Result)
  fault : Option FaultRecord
  faultCode : Option Nat
  refused : Bool
deriving DecidableEq, Repr

/-- The observation of a state; an unmapped pin has no IO_MUX register (R32, R68). -/
def observe (s : State) : Observation where
  out := s.out
  enable := s.enable
  pinConfig := s.pinConfig.toList
  funcSel := s.funcSel.toList
  ioMux := (List.finRange nMax).map fun n => if isMapped s.params n then some (s.ioMux.get n) else none
  lpLog := s.lpLog
  results := (agents s).map fun a => (callerOf s a).results
  fault := s.fault
  faultCode := s.fault.map fun r => faultCode r.reason
  refused := s.refused

/-! The table of R98. -/

/-- The pin of an operation that takes one (R85, R97). -/
def pinOf : Instr → Option Nat
  | .reset pin => some pin
  | .setPullup pin _ => some pin
  | .setPulldown pin _ => some pin
  | .setInputEnable pin _ => some pin
  | .setOutputEnable pin _ => some pin
  | .setOpenDrain pin _ => some pin
  | .setLevel pin _ => some pin
  | .getLevel pin => some pin
  | .getAllInputs => none
  | .getAllOutputs => none

/-- The IO_MUX-touching operations of R92. -/
def touchesIoMux : Instr → Bool
  | .reset _ => true
  | .setPullup _ _ => true
  | .setPulldown _ _ => true
  | .setInputEnable _ _ => true
  | .setOutputEnable _ _ => false
  | .setOpenDrain _ _ => false
  | .setLevel _ _ => false
  | .getLevel _ => false
  | .getAllInputs => false
  | .getAllOutputs => false

/-- The kind of result an operation returns (R73). -/
def resultKindOk : Instr → Result → Bool
  | .reset _, .status _ => true
  | .setPullup _ _, .status _ => true
  | .setPulldown _ _, .status _ => true
  | .setInputEnable _ _, .status _ => true
  | .setOutputEnable _ _, .status _ => true
  | .setOpenDrain _ _, .status _ => true
  | .setLevel _ _, .status _ => true
  | .getLevel _, .bit _ => true
  | .getAllInputs, .word64 _ => true
  | .getAllOutputs, .word64 _ => true
  | _, _ => false

/-- The level operations of R123. -/
def isLevelOp : Instr → Bool
  | .setLevel _ _ => true
  | .getLevel _ => true
  | .getAllInputs => true
  | .getAllOutputs => true
  | .reset _ => false
  | .setPullup _ _ => false
  | .setPulldown _ _ => false
  | .setInputEnable _ _ => false
  | .setOutputEnable _ _ => false
  | .setOpenDrain _ _ => false

/-- The operations that can call the LP controller (R109). -/
def handsOff : Instr → Bool
  | .reset _ => true
  | .setPullup _ _ => true
  | .setPulldown _ _ => true
  | .setInputEnable _ _ => false
  | .setOutputEnable _ _ => false
  | .setOpenDrain _ _ => false
  | .setLevel _ _ => false
  | .getLevel _ => false
  | .getAllInputs => false
  | .getAllOutputs => false

/-- The row's fixed bits in spec/opcode_table.json: its mask (R70, R74). -/
def rowMask : Instr → CmdWord
  | .reset _ => 0xFFC0
  | .setPullup _ _ => 0xFEC0
  | .setPulldown _ _ => 0xFEC0
  | .setInputEnable _ _ => 0xFEC0
  | .setOutputEnable _ _ => 0xFEC0
  | .setOpenDrain _ _ => 0xFEC0
  | .setLevel _ _ => 0xFEC0
  | .getLevel _ => 0xFFC0
  | .getAllInputs => 0xFFFF
  | .getAllOutputs => 0xFFFF

/-- The values of the row's fixed bits in spec/opcode_table.json: its match (R70, R74). -/
def rowMatch : Instr → CmdWord
  | .reset _ => 0x0000
  | .setPullup _ _ => 0x1000
  | .setPulldown _ _ => 0x2000
  | .setInputEnable _ _ => 0x3000
  | .setOutputEnable _ _ => 0x4000
  | .setOpenDrain _ _ => 0x5000
  | .setLevel _ _ => 0x6000
  | .getLevel _ => 0x7000
  | .getAllInputs => 0x8000
  | .getAllOutputs => 0x9000

/-! The invariant of the agents' records. -/

/-- Whether a micro-step returns a value to its operation. -/
def MicroStep.returns : MicroStep → Bool
  | .read _ => true
  | .write _ _ => false
  | .writeBack _ _ _ => false
  | .call _ _ _ => true

/-- What is left of an operation is a proper, nonempty rest of its plan, and it holds one value for each
micro-step taken that returned one. -/
def restOf (plan : Plan) (f : InFlight) : Bool :=
  f.finish == plan.finish && !f.todo.isEmpty && decide (f.todo.length < plan.steps.length)
    && f.todo == plan.steps.drop (plan.steps.length - f.todo.length)
    && f.got.length == (plan.steps.take (plan.steps.length - f.todo.length)).countP MicroStep.returns

/-- The operation a caller is inside of is the one its command at its index stands for, and passed its
checks (R56, R96). -/
def inFlightOk (p : Params) (c : Caller) (f : InFlight) : Bool :=
  match c.commands[c.index]? with
  | none => false
  | some cw =>
    match decode cw with
    | .error _ => false
    | .ok i =>
      match planOf p i with
      | .error _ => false
      | .ok plan => restOf plan f

/-- A caller's command at its index is one whose checks fail with this reason (R96, R137). -/
def commandFaults (p : Params) (c : Caller) (reason : FaultReason) : Bool :=
  match c.commands[c.index]? with
  | none => false
  | some cw =>
    match decode cw with
    | .error _ => false
    | .ok i =>
      match planOf p i with
      | .error e => e == reason
      | .ok _ => false

/-- A caller's command at its index spells no operation, for this reason (R141). -/
def commandRefused (c : Caller) (reason : CommandRefusal) : Bool :=
  match c.commands[c.index]? with
  | none => false
  | some cw =>
    match decode cw with
    | .error e => e == reason
    | .ok _ => false

/-- A caller has one result for each command it completed (R73), an index in its list (R65), is inside an
operation of its own and then not stopped; and where it stopped, its command at its index is the reason, and
FAULT or REFUSED is set (R137, R141). -/
def callerOk (s : State) (c : Caller) : Bool :=
  c.results.length == c.index && decide (c.index ≤ c.commands.length)
    && (match c.inFlight with
        | none => true
        | some f => c.halted.isNone && inFlightOk s.params c f)
    && (match c.halted with
        | none => true
        | some (.faulted e) => s.fault.isSome && commandFaults s.params c e
        | some (.refused e) => s.refused && commandRefused c e)

/-- FAULT names an agent that stopped with that reason at that command index (R37, R137). -/
def faultOk (s : State) : Bool :=
  match s.fault with
  | none => true
  | some r =>
    agentExists s r.agent && (callerOf s r.agent).halted == some (.faulted r.reason)
      && (callerOf s r.agent).index == r.index

/-- REFUSED is set only where an agent stopped at a refused command word (R141). -/
def refusedOk (s : State) : Bool :=
  !s.refused || (agents s).any fun a =>
    match (callerOf s a).halted with
    | some (.refused _) => true
    | some (.faulted _) => false
    | none => false

/-- The invariant: every agent's record, FAULT and REFUSED agree. -/
def recordsOk (s : State) : Bool :=
  (agents s).all (fun a => callerOk s (callerOf s a)) && faultOk s && refusedOk s

/-! A bound on the turns a run still has (R171). -/

/-- At most 7 micro-steps for each command left, counted so that every micro-step and every command uses some
up: 8 for a command not started, its micro-steps left for the one a caller is inside of, 0 for a caller that
stopped. -/
def callerWork (c : Caller) : Nat :=
  if c.halted.isSome then 0
  else
    match c.inFlight with
    | none => 8 * (c.commands.length - c.index)
    | some f => 8 * (c.commands.length - c.index - 1) + f.todo.length

/-- The work left of all agents together. -/
def workLeft (s : State) : Nat := ((agents s).map fun a => callerWork (callerOf s a)).sum

end Sys2Proof.Machine
end

