-- ==== Sys2Proof/Certificates/Slice0/Obligations.lean ====
section
/-! DEFINITION. The statements for the provers. Each docstring says which rule of spec/ it comes from and, where a
clause is the model's own choice, which row of notes/assumptions/ says so. In all of them the parameters are
those of the state, whatever they are, and the draws are opaque: a statement that names one holds for every value
of it; which draw stands where is the model's form (notes/assumptions/3.md to 5.md).
Admitted parameters are `Params.wellFormed`: R9 with the clauses of notes/assumptions/2.md. -/

open Sys2Proof Sys2Proof.Machine

/-! Encoding. -/

/-- Every well-formed operation is read back from its command word (30_encoding.md R74, R82). -/
def Obligations.DecodeInvertsEncode : Prop :=
  ∀ i : Instr, i.wellFormed = true → decode (encode i) = .ok i

/-- Every command word that spells an operation is that operation's only word (R70, R79). -/
def Obligations.EncodeInvertsDecode : Prop :=
  ∀ (cw : CmdWord) (i : Instr), decode cw = .ok i → i.wellFormed = true ∧ encode i = cw

/-- R80: decode on every 16-bit value, with the fields taken out by arithmetic: the four refusals in their order,
and else one operation of R74 with its pin and v. -/
def Obligations.DecodeChecksInOrder : Prop :=
  ∀ cw : CmdWord,
    decode cw =
      (let op := cw.toNat / 4096
       let v := cw.toNat / 256 % 2
       let pin := cw.toNat % 64
       if 10 ≤ op then .error .reservedOp
       else if cw.toNat / 512 % 8 ≠ 0 ∨ cw.toNat / 64 % 4 ≠ 0 then .error .reservedBits
       else if (op = 0 ∨ op = 7 ∨ op = 8 ∨ op = 9) ∧ v = 1 then .error .reservedV
       else if (op = 8 ∨ op = 9) ∧ pin ≠ 0 then .error .reservedPin
       else .ok (if op = 0 then .reset pin else if op = 1 then .setPullup pin (v == 1)
         else if op = 2 then .setPulldown pin (v == 1) else if op = 3 then .setInputEnable pin (v == 1)
         else if op = 4 then .setOutputEnable pin (v == 1) else if op = 5 then .setOpenDrain pin (v == 1)
         else if op = 6 then .setLevel pin (v == 1) else if op = 7 then .getLevel pin
         else if op = 8 then .getAllInputs else .getAllOutputs))

/-- R82: the assembler rejects a pin outside 0..63 and an enable that is not 0 or 1; a level is any integer, and V
is whether it is nonzero. -/
def Obligations.AssemblerConvertsOperands : Prop :=
  (∀ pin level : Int, assemble (.setLevel pin level) =
    if 0 ≤ pin ∧ pin ≤ 63 then some (commandWord 6 (level != 0) pin.toNat) else none) ∧
  (∀ pin : Int, assemble (.reset pin) = if 0 ≤ pin ∧ pin ≤ 63 then some (commandWord 0 false pin.toNat) else none) ∧
  (∀ pin : Int, assemble (.getLevel pin) = if 0 ≤ pin ∧ pin ≤ 63 then some (commandWord 7 false pin.toNat) else none) ∧
  (∀ pin e : Int,
    ∀ opLine ∈ [(1, AsmLine.setPullup pin e), (2, .setPulldown pin e), (3, .setInputEnable pin e),
      (4, .setOutputEnable pin e), (5, .setOpenDrain pin e)],
      assemble opLine.2 =
        if (0 ≤ pin ∧ pin ≤ 63) ∧ (e = 0 ∨ e = 1) then some (commandWord opLine.1 (e == 1) pin.toNat) else none) ∧
  assemble .getAllInputs = some (commandWord 8 false 0) ∧ assemble .getAllOutputs = some (commandWord 9 false 0) ∧
  (∀ (op pin : Nat) (v : Bool), op < 16 → pin < 64 →
    (commandWord op v pin).toNat = op * 2 ^ 12 + (if v then 2 ^ 8 else 0) + pin)

/-- R84: the encoding examples. -/
def Obligations.AssemblyExamples : Prop :=
  [AsmLine.reset 25, .setPullup 5 1, .setPulldown 5 0, .setInputEnable 5 1, .setOutputEnable 32 1, .setOpenDrain 5 1,
    .setLevel 25 1, .setLevel 26 0, .setLevel 31 7, .getLevel 39, .getAllInputs, .getAllOutputs].map assemble =
  [some 0x0019, some 0x1105, some 0x2005, some 0x3105, some 0x4120, some 0x5105, some 0x6119, some 0x601A, some 0x611F,
    some 0x7027, some 0x8000, some 0x9000]

/-- A few command words of 95_test_vectors.md section 3.1 decode as it says (EV1 to EV16). -/
def Obligations.VectorWordsDecode : Prop :=
  decode 0x0019 = .ok (.reset 25) ∧ decode 0x8000 = .ok .getAllInputs ∧ decode 0xF13F = .error .reservedOp ∧
  decode 0x0219 = .error .reservedBits ∧ decode 0x6159 = .error .reservedBits ∧ decode 0x7127 = .error .reservedV ∧
  decode 0x8101 = .error .reservedV ∧ decode 0x9001 = .error .reservedPin ∧ decode 0x6128 = .ok (.setLevel 40 true) ∧
  decode 0x603F = .ok (.setLevel 63 false) ∧ decode 0x1105 = .ok (.setPullup 5 true)

/-! The pin-to-register address decoder. -/

/-- R87, R88, R90: a pin below 32 is bit `pin` of the low bank, the others bit `pin - 32` of the high bank; the bit
is at most 31, and at most 7 in the high bank; the mask is the power of two of the bit. -/
def Obligations.ResolveSplitsAtBoundary : Prop :=
  ∀ n : Pin,
    (n.val < 32 → resolve n = (.lo, bitOf n) ∧ (bitOf n).val = n.val) ∧
    (32 ≤ n.val → resolve n = (.hi, bitOf n) ∧ (bitOf n).val = n.val - 32 ∧ (bitOf n).val ≤ 7) ∧
    (bitOf n).val ≤ 31 ∧ (pinMask n).toNat = 2 ^ (bitOf n).val

/-- R85, R86, R92, in the order of R96: an operation with a pin faults on a pin out of range; on a pin in range
that is not bonded out; and, where it is one of the four IO_MUX-touching operations, on a bonded pin without an
IO_MUX register, LP-capable or not. -/
def Obligations.PinChecksFaultInOrder : Prop :=
  ∀ (i : Instr) (pin : Nat) (s : State), pinOf i = some pin →
    (40 ≤ pin → exec i s = .next (raiseFault (.pinOutOfRange pin) s)) ∧
    (∀ n : Pin, n.val = pin → s.params.bonded.get n = false → exec i s = .next (raiseFault (.pinNotBonded pin) s)) ∧
    (∀ n : Pin, n.val = pin → s.params.bonded.get n = true → touchesIoMux i = true →
      s.params.ioMuxOffset.get n = none → exec i s = .next (raiseFault (.ioMuxUnmapped pin) s))

/-- R73, R97: an operation whose checks pass, and a snapshot always, completes with exactly one result of its kind,
and neither FAULT nor REFUSED changes. -/
def Obligations.OperationsReturnOneResult : Prop :=
  ∀ (i : Instr) (s : State), agentExists s s.mover = true →
    (∀ pin, pinOf i = some pin → ∃ n : Pin, n.val = pin ∧ s.params.bonded.get n = true ∧
      (touchesIoMux i = true → (s.params.ioMuxOffset.get n).isSome = true)) →
    ∃ t r, exec i s = .next t ∧ resultKindOk i r = true ∧ t.fault = s.fault ∧ t.refused = s.refused ∧
      (callerOf t s.mover).results = (callerOf s s.mover).results ++ [r] ∧
      (callerOf t s.mover).index = (callerOf s s.mover).index + 1

/-- What completing an operation does to the agents' records, and that it does nothing else (R39, R65, R152). -/
def Obligations.CompletionAppendsResult : Prop :=
  ∀ (r : Result) (s : State), agentExists s s.mover = true →
    callerOf (complete r s) s.mover =
      { callerOf s s.mover with
        results := (callerOf s s.mover).results ++ [r], index := (callerOf s s.mover).index + 1, inFlight := none } ∧
    (∀ a, a ≠ s.mover → callerOf (complete r s) a = callerOf s a) ∧
    complete r s = { s with owner := (complete r s).owner, contexts := (complete r s).contexts }

/-- No operation stops the machine: exec always answers a next state, also where a check fails and the agent stops
(R135, R137, R170). -/
def Obligations.NoOperationStopsTheMachine : Prop :=
  ∀ (i : Instr) (s : State), ∃ t, exec i s = .next t

/-! Registers. -/

/-- R46, R47: a write to a set or clear port sets or clears the bits of X[b] where the value has a 1; the other
bits, the other bank and everything else are as before. -/
def Obligations.PortsSetAndClearBits : Prop :=
  ∀ (s : State) (b c : Bank) (v : Word),
    (∃ t, writeReg (.outSet b) v s = .next t ∧ t = { s with out := t.out } ∧ ∀ k, (bankGet t.out c).getLsbD k =
      ((bankGet s.out c).getLsbD k || (decide (c = b) && v.getLsbD k))) ∧
    (∃ t, writeReg (.outClear b) v s = .next t ∧ t = { s with out := t.out } ∧ ∀ k, (bankGet t.out c).getLsbD k =
      ((bankGet s.out c).getLsbD k && !(decide (c = b) && v.getLsbD k))) ∧
    (∃ t, writeReg (.enableSet b) v s = .next t ∧ t = { s with enable := t.enable } ∧ ∀ k,
      (bankGet t.enable c).getLsbD k = ((bankGet s.enable c).getLsbD k || (decide (c = b) && v.getLsbD k))) ∧
    (∃ t, writeReg (.enableClear b) v s = .next t ∧ t = { s with enable := t.enable } ∧ ∀ k,
      (bankGet t.enable c).getLsbD k = ((bankGet s.enable c).getLsbD k && !(decide (c = b) && v.getLsbD k)))

/-- R45: a storage register reads back the value last written, but for bits 31..8 of a high-bank register (R33); a
write to IO_MUX(n) draws IN_HOLD[n] afresh; no write changes another register. -/
def Obligations.StorageReadsBack : Prop :=
  ∀ (s : State) (v : Word),
    (∀ b, ∃ t w u, writeReg (.out b) v s = .next t ∧ readReg (.out b) t = .next (w, u) ∧
      (∀ k, k < (if b = .lo then 32 else 8) → w.getLsbD k = v.getLsbD k) ∧ t = { s with out := bankSet s.out b v }) ∧
    (∀ b, ∃ t w u, writeReg (.enable b) v s = .next t ∧ readReg (.enable b) t = .next (w, u) ∧
      (∀ k, k < (if b = .lo then 32 else 8) → w.getLsbD k = v.getLsbD k) ∧
      t = { s with enable := bankSet s.enable b v }) ∧
    (∀ n : Pin, ∃ t u, writeReg (.pinConfig n) v s = .next t ∧ readReg (.pinConfig n) t = .next (v, u) ∧
      t = { s with pinConfig := putPin s.pinConfig n v }) ∧
    (∀ n : Pin, ∃ t u, writeReg (.funcSel n) v s = .next t ∧ readReg (.funcSel n) t = .next (v, u) ∧
      t = { s with funcSel := putPin s.funcSel n v }) ∧
    (∀ n : Pin, (s.params.ioMuxOffset.get n).isSome = true →
      ∃ t u, writeReg (.ioMux n) v s = .next t ∧ readReg (.ioMux n) t = .next (v, u) ∧
        t = { s with ioMux := putPin s.ioMux n v, inHold := putPin s.inHold n (Config.holdBit s.draws),
                     draws := s.draws + 1 })

/-- R49: each bit of a read of IN[b], where bit i of the low bank is pin i and bit i of the high bank is pin 32 + i:
any value for a pin that is out of range, not bonded out or without an IO_MUX register; the pad level where the
input is enabled; IN_HOLD otherwise. The read changes nothing but the model's draw counter. -/
def Obligations.InputReadSamplesPads : Prop :=
  ∀ (s : State) (b : Bank), ∃ w, readReg (.input b) s = .next (w, { s with draws := s.draws + 1 }) ∧
    ∀ i : Fin 32, w.getLsbD i.val =
      (let pin := if b = .lo then i.val else 32 + i.val
       if h : pin < 40 then
         if s.params.bonded.get ⟨pin, h⟩ = true ∧ s.params.ioMuxOffset.get ⟨pin, h⟩ ≠ none then
           if (s.ioMux.get ⟨pin, h⟩).getLsbD s.params.ieBit.val = true then (Config.padLevel s.draws).getLsbD pin
           else s.inHold.get ⟨pin, h⟩
         else (Config.anyWord s.draws).getLsbD i.val
       else (Config.anyWord s.draws).getLsbD i.val)

/-- A read of a set or clear port and a write to IN are refused (from R48, R50: the refusals are for a model that adds
raw access). A raw read or write of the IO_MUX register of an unmapped pin is the fault noSuchRegister: that is the
model's choice (notes/assumptions/12.md), for R32 says that the register does not exist and speaks of operations only. -/
def Obligations.AbsentAccessesAreTurnedAway : Prop :=
  ∀ (s : State) (b : Bank) (v : Word),
    readReg (.outSet b) s = .refused (.portRead (.outSet b)) ∧
    readReg (.outClear b) s = .refused (.portRead (.outClear b)) ∧
    readReg (.enableSet b) s = .refused (.portRead (.enableSet b)) ∧
    readReg (.enableClear b) s = .refused (.portRead (.enableClear b)) ∧
    writeReg (.input b) v s = .refused (.inputWrite (.input b)) ∧
    ∀ n : Pin, s.params.ioMuxOffset.get n = none →
      readReg (.ioMux n) s = .fault (.noSuchRegister (.ioMux n)) ∧
      writeReg (.ioMux n) v s = .fault (.noSuchRegister (.ioMux n))

/-- Writing the same value twice in a row to any register leaves the observation (R68) that writing it once leaves
(from R60). -/
def Obligations.RepeatedWriteIsIdempotent : Prop :=
  ∀ (r : Reg) (v : Word) (s t : State), writeReg r v s = .next t →
    ∃ u, writeReg r v t = .next u ∧ observe u = observe t

/-- Under admitted parameters, the register found at a register's address is that register, and the address is a
multiple of 4 (from R9, R51). The model's choice: an offset is 32 bits and the address of an IO_MUX register is
IO_MUX_BASE + IO_MUX_OFFSET(n) modulo 2^32 (notes/assumptions/19.md); admitted means R9 with the clauses the model adds
to it (DEDUCED: notes/assumptions/2.md). -/
def Obligations.AddressesNameOneRegister : Prop :=
  ∀ (p : Params) (r : Reg) (a : Addr), p.wellFormed = true → addrOf p r = some a →
    regAt p a = some r ∧ a.toNat % 4 = 0

/-! Pin configuration operations. Each is an equation, so that what it does not name is unchanged. -/

/-- RESET on a bonded, mapped pin (R101, R159): the three LP calls of an LP-capable pin are logged in order, then
PIN_CONFIG is 0, FUNC_SEL and IO_MUX are the parameters' values, IN_HOLD is drawn, the OUT bit is 0, and the result
is STATUS_OK whatever the LP controller answered. -/
def Obligations.ResetLeavesSafeState : Prop :=
  ∀ (s : State) (n : Pin), s.params.bonded.get n = true → (s.params.ioMuxOffset.get n).isSome = true →
    exec (.reset n.val) s =
      (let lp := s.params.lpCapable.get n
       let d := s.draws
       .next (complete (.status 0)
        { s with
          pinConfig := putPin s.pinConfig n 0
          funcSel := putPin s.funcSel n s.params.funcSelDisconnected
          ioMux := putPin s.ioMux n s.params.ioMuxDefault
          inHold := putPin s.inHold n (Config.holdBit (if lp then d + 3 else d))
          out := bankSet s.out (bankOf n) (bankGet s.out (bankOf n) &&& ~~~(1#32 <<< (bitOf n).val))
          lpLog := s.lpLog ++
            (if lp then
              [⟨s.mover, .detach, n, none, Config.lpStatus d⟩, ⟨s.mover, .pullup, n, some true, Config.lpStatus (d + 1)⟩,
               ⟨s.mover, .pulldown, n, some false, Config.lpStatus (d + 2)⟩]
             else [])
          draws := if lp then d + 4 else d + 1 }))

/-- SET_PULLUP and SET_PULLDOWN on an LP-capable pin (R103, R104, R142, R149): one call, whose status is the result,
and no register is written. -/
def Obligations.PullOnLpCapablePinIsDelegated : Prop :=
  ∀ (s : State) (n : Pin) (en : Bool), s.params.bonded.get n = true →
    (s.params.ioMuxOffset.get n).isSome = true → s.params.lpCapable.get n = true →
    exec (.setPullup n.val en) s = .next (complete (.status (Config.lpStatus s.draws))
      { s with lpLog := s.lpLog ++ [⟨s.mover, .pullup, n, some en, Config.lpStatus s.draws⟩], draws := s.draws + 1 }) ∧
    exec (.setPulldown n.val en) s = .next (complete (.status (Config.lpStatus s.draws))
      { s with lpLog := s.lpLog ++ [⟨s.mover, .pulldown, n, some en, Config.lpStatus s.draws⟩], draws := s.draws + 1 })

/-- SET_PULLUP and SET_PULLDOWN on a pin that is not LP-capable (R103, R104): the one bit of IO_MUX. -/
def Obligations.PullOnDigitalPinWritesIoMux : Prop :=
  ∀ (s : State) (n : Pin) (en : Bool), s.params.bonded.get n = true →
    (s.params.ioMuxOffset.get n).isSome = true → s.params.lpCapable.get n = false →
    exec (.setPullup n.val en) s = .next (complete (.status 0)
      { s with
        ioMux := putPin s.ioMux n
          (if en then s.ioMux.get n ||| (1#32 <<< s.params.puBit.val)
           else s.ioMux.get n &&& ~~~(1#32 <<< s.params.puBit.val))
        inHold := putPin s.inHold n (Config.holdBit s.draws)
        draws := s.draws + 1 }) ∧
    exec (.setPulldown n.val en) s = .next (complete (.status 0)
      { s with
        ioMux := putPin s.ioMux n
          (if en then s.ioMux.get n ||| (1#32 <<< s.params.pdBit.val)
           else s.ioMux.get n &&& ~~~(1#32 <<< s.params.pdBit.val))
        inHold := putPin s.inHold n (Config.holdBit s.draws)
        draws := s.draws + 1 })

/-- SET_INPUT_ENABLE on a bonded, mapped pin, LP-capable or not (R106). -/
def Obligations.SetInputEnableWritesIoMux : Prop :=
  ∀ (s : State) (n : Pin) (en : Bool), s.params.bonded.get n = true →
    (s.params.ioMuxOffset.get n).isSome = true →
    exec (.setInputEnable n.val en) s = .next (complete (.status 0)
      { s with
        ioMux := putPin s.ioMux n
          (if en then s.ioMux.get n ||| (1#32 <<< s.params.ieBit.val)
           else s.ioMux.get n &&& ~~~(1#32 <<< s.params.ieBit.val))
        inHold := putPin s.inHold n (Config.holdBit s.draws)
        draws := s.draws + 1 })

/-- SET_OPEN_DRAIN on a bonded pin, mapped or not, LP-capable or not (R107). -/
def Obligations.SetOpenDrainWritesPinConfig : Prop :=
  ∀ (s : State) (n : Pin) (en : Bool), s.params.bonded.get n = true →
    exec (.setOpenDrain n.val en) s = .next (complete (.status 0)
      { s with
        pinConfig := putPin s.pinConfig n
          (if en then s.pinConfig.get n ||| (1#32 <<< s.params.odBit.val)
           else s.pinConfig.get n &&& ~~~(1#32 <<< s.params.odBit.val)) })

/-- With nobody between its read and its write, SET_PULLUP or SET_PULLDOWN on a pin that is not LP-capable,
SET_INPUT_ENABLE or SET_OPEN_DRAIN changes at most the one named bit of the register it writes (from R108, whose own
premise ReadModifyWriteKeepsOtherBits has; exec runs an operation whole by the model's choice,
notes/assumptions/10.md). -/
def Obligations.ConfigurationKeepsOtherBits : Prop :=
  ∀ (s : State) (n : Pin) (en : Bool), s.params.bonded.get n = true →
    ((s.params.ioMuxOffset.get n).isSome = true → s.params.lpCapable.get n = false →
      ∃ t, exec (.setPullup n.val en) s = .next t ∧
        ∀ k : Fin 32, (t.ioMux.get n).getLsbD k.val =
          if k = s.params.puBit then en else (s.ioMux.get n).getLsbD k.val) ∧
    ((s.params.ioMuxOffset.get n).isSome = true → s.params.lpCapable.get n = false →
      ∃ t, exec (.setPulldown n.val en) s = .next t ∧
        ∀ k : Fin 32, (t.ioMux.get n).getLsbD k.val =
          if k = s.params.pdBit then en else (s.ioMux.get n).getLsbD k.val) ∧
    ((s.params.ioMuxOffset.get n).isSome = true → ∃ t, exec (.setInputEnable n.val en) s = .next t ∧
      ∀ k : Fin 32, (t.ioMux.get n).getLsbD k.val =
        if k = s.params.ieBit then en else (s.ioMux.get n).getLsbD k.val) ∧
    (∃ t, exec (.setOpenDrain n.val en) s = .next t ∧
      ∀ k : Fin 32, (t.pinConfig.get n).getLsbD k.val =
        if k = s.params.odBit then en else (s.pinConfig.get n).getLsbD k.val)

/-- R108: let an agent take the read of a SET_PULLUP or SET_PULLDOWN on a pin that is not LP-capable, of a
SET_INPUT_ENABLE or of a SET_OPEN_DRAIN, and let u be any state that other agents may have made since, where that
agent is as the read left it and the register holds what the read saw. Then the agent's next micro-step writes a value
that differs from it in at most the one named bit. -/
def Obligations.ReadModifyWriteKeepsOtherBits : Prop :=
  let keeps : Instr → (State → Word) → BitIndex → Bool → State → Prop := fun i register bit en s =>
    ∀ cw, (callerOf s s.mover).inFlight = none → fetch s = some cw → decode cw = .ok i →
      ∃ t, runMicroStep s = .next t ∧ register t = register s ∧
        ∀ u, u.mover = s.mover → u.params = s.params → callerOf u u.mover = callerOf t s.mover →
          register u = register s → ∃ v, runMicroStep u = .next v ∧
            ∀ k : Fin 32, (register v).getLsbD k.val = if k = bit then en else (register s).getLsbD k.val
  ∀ (s : State) (n : Pin) (en : Bool), agentExists s s.mover = true → s.params.bonded.get n = true →
    ((s.params.ioMuxOffset.get n).isSome = true → s.params.lpCapable.get n = false →
      keeps (.setPullup n.val en) (fun x => x.ioMux.get n) s.params.puBit en s ∧
      keeps (.setPulldown n.val en) (fun x => x.ioMux.get n) s.params.pdBit en s) ∧
    ((s.params.ioMuxOffset.get n).isSome = true →
      keeps (.setInputEnable n.val en) (fun x => x.ioMux.get n) s.params.ieBit en s) ∧
    keeps (.setOpenDrain n.val en) (fun x => x.pinConfig.get n) s.params.odBit en s

/-- R105: on a pin that is not LP-capable, any pair of pull settings can be made, both enabled included, in either
order, and no operation faults on it. -/
def Obligations.PullsAreIndependent : Prop :=
  ∀ (s : State) (n : Pin) (up down : Bool), s.params.wellFormed = true → s.params.bonded.get n = true →
    (s.params.ioMuxOffset.get n).isSome = true → s.params.lpCapable.get n = false →
    ∃ t u t' u', exec (.setPullup n.val up) s = .next t ∧ exec (.setPulldown n.val down) t = .next u ∧
      exec (.setPulldown n.val down) s = .next t' ∧ exec (.setPullup n.val up) t' = .next u' ∧
      u.ioMux = u'.ioMux ∧ u.fault = s.fault ∧ u'.fault = s.fault ∧
      (u.ioMux.get n).getLsbD s.params.puBit.val = up ∧ (u.ioMux.get n).getLsbD s.params.pdBit.val = down

/-- R102: after RESET(p) the OUT bit of p is 0, and GET_ALL_OUTPUTS reads bit p as 0; where any agent then runs
SET_LEVEL(p, 1), the bit is 1 again. -/
def Obligations.ResetOutputReadsBackZero : Prop :=
  ∀ (s : State) (n : Pin), agentExists s s.mover = true → s.params.bonded.get n = true →
    (s.params.ioMuxOffset.get n).isSome = true →
    ∃ t u w, exec (.reset n.val) s = .next t ∧ (bankGet t.out (bankOf n)).getLsbD (bitOf n).val = false ∧
      exec .getAllOutputs t = .next u ∧
      (callerOf u s.mover).results = (callerOf t s.mover).results ++ [.word64 w] ∧ w.getLsbD n.val = false ∧
      ∀ a : Agent, ∃ v, exec (.setLevel n.val true) { t with mover := a } = .next v ∧
        (bankGet v.out (bankOf n)).getLsbD (bitOf n).val = true

/-- R109: only RESET, SET_PULLUP and SET_PULLDOWN issue LpCalls, and the pulls only on an LP-capable pin (as RESET
does, R148). -/
def Obligations.OnlyResetAndPullsHandOff : Prop :=
  ∀ (i : Instr) (s t : State), exec i s = .next t →
    (handsOff i = false ∨ ∀ n : Pin, pinOf i = some n.val → s.params.lpCapable.get n = false) →
    t.lpLog = s.lpLog

/-! Output-enable and level bit accessors. -/

/-- SET_OUTPUT_ENABLE on a bonded pin (R116): one bit of ENABLE in the pin's bank. -/
def Obligations.SetOutputEnableWritesOneBit : Prop :=
  ∀ (s : State) (n : Pin) (en : Bool), s.params.bonded.get n = true →
    exec (.setOutputEnable n.val en) s = .next (complete (.status 0)
      { s with
        enable := bankSet s.enable (bankOf n)
          (if en then bankGet s.enable (bankOf n) ||| (1#32 <<< (bitOf n).val)
           else bankGet s.enable (bankOf n) &&& ~~~(1#32 <<< (bitOf n).val)) })

/-- SET_LEVEL on a bonded pin (R117): one bit of OUT in the pin's bank. -/
def Obligations.SetLevelWritesOneBit : Prop :=
  ∀ (s : State) (n : Pin) (level : Bool), s.params.bonded.get n = true →
    exec (.setLevel n.val level) s = .next (complete (.status 0)
      { s with
        out := bankSet s.out (bankOf n)
          (if level then bankGet s.out (bankOf n) ||| (1#32 <<< (bitOf n).val)
           else bankGet s.out (bankOf n) &&& ~~~(1#32 <<< (bitOf n).val)) })

/-- GET_LEVEL on a bonded pin (R119): the pad level where the input is enabled, IN_HOLD where it is not, any value on
an unmapped pin; nothing but the result and the draw counter changes. -/
def Obligations.GetLevelReadsInputBit : Prop :=
  ∀ (s : State) (n : Pin), s.params.bonded.get n = true →
    exec (.getLevel n.val) s = .next (complete
      (.bit
        (if (s.params.ioMuxOffset.get n).isSome = true then
          if (s.ioMux.get n).getLsbD s.params.ieBit.val = true then (Config.padLevel s.draws).getLsbD n.val
          else s.inHold.get n
        else (Config.anyWord s.draws).getLsbD (bitOf n).val))
      { s with draws := s.draws + 1 })

/-- GET_ALL_INPUTS (R120): bit i, for i below 40, is pin i's input as R49 gives it, the low bank's at the first read
and the high bank's at the second; nothing but the result and the draw counter changes. -/
def Obligations.GetAllInputsReadsBothBanks : Prop :=
  ∀ s : State, ∃ w : Word64,
    exec .getAllInputs s = .next (complete (.word64 w) { s with draws := s.draws + 2 }) ∧
    ∀ n : Pin, w.getLsbD n.val =
      (let d := if n.val < 32 then s.draws else s.draws + 1
       if s.params.bonded.get n = true ∧ (s.params.ioMuxOffset.get n).isSome = true then
         if (s.ioMux.get n).getLsbD s.params.ieBit.val = true then (Config.padLevel d).getLsbD n.val
         else s.inHold.get n
       else (Config.anyWord d).getLsbD (bitOf n).val)

/-- GET_ALL_OUTPUTS (R121): bit i, for i below 40, is OUT's bit for pin i; nothing but the result and the draw
counter changes. -/
def Obligations.GetAllOutputsReadsBothBanks : Prop :=
  ∀ s : State, ∃ w : Word64,
    exec .getAllOutputs s = .next (complete (.word64 w) { s with draws := s.draws + 2 }) ∧
    ∀ n : Pin, w.getLsbD n.val = (bankGet s.out (bankOf n)).getLsbD (bitOf n).val

/-- R122: SET_LEVEL(p, 1) writes only OUT_SET[LO] with 1 << p for p below 32 and only OUT_SET[HI] with 1 << (p - 32)
above, so afterwards that bit is 1 and the other bank's OUT is unchanged; the same for SET_OUTPUT_ENABLE and
ENABLE. -/
def Obligations.BanksAreIsolated : Prop :=
  ∀ (s : State) (n : Pin), s.params.bonded.get n = true →
    (∃ t, exec (.setLevel n.val true) s = .next t ∧
      (n.val < 32 → planOf s.params (.setLevel n.val true) = .ok ⟨[.write (.outSet .lo) (1#32 <<< n.val)], .ok⟩ ∧
        t.out.lo = s.out.lo ||| (1#32 <<< n.val) ∧ t.out.lo.getLsbD n.val = true ∧ t.out.hi = s.out.hi) ∧
      (32 ≤ n.val →
        planOf s.params (.setLevel n.val true) = .ok ⟨[.write (.outSet .hi) (1#32 <<< (n.val - 32))], .ok⟩ ∧
        t.out.hi = s.out.hi ||| (1#32 <<< (n.val - 32)) ∧ t.out.hi.getLsbD (n.val - 32) = true ∧
        t.out.lo = s.out.lo) ∧
      t.enable = s.enable ∧ t.pinConfig = s.pinConfig ∧ t.funcSel = s.funcSel ∧ t.ioMux = s.ioMux) ∧
    (∃ t, exec (.setOutputEnable n.val true) s = .next t ∧
      (n.val < 32 →
        planOf s.params (.setOutputEnable n.val true) = .ok ⟨[.write (.enableSet .lo) (1#32 <<< n.val)], .ok⟩ ∧
        t.enable.lo = s.enable.lo ||| (1#32 <<< n.val) ∧ t.enable.lo.getLsbD n.val = true ∧
        t.enable.hi = s.enable.hi) ∧
      (32 ≤ n.val →
        planOf s.params (.setOutputEnable n.val true) =
          .ok ⟨[.write (.enableSet .hi) (1#32 <<< (n.val - 32))], .ok⟩ ∧
        t.enable.hi = s.enable.hi ||| (1#32 <<< (n.val - 32)) ∧ t.enable.hi.getLsbD (n.val - 32) = true ∧
        t.enable.lo = s.enable.lo) ∧
      t.out = s.out ∧ t.pinConfig = s.pinConfig ∧ t.funcSel = s.funcSel ∧ t.ioMux = s.ioMux)

/-- R123: SET_LEVEL, GET_LEVEL, GET_ALL_INPUTS and GET_ALL_OUTPUTS never touch IO_MUX, PIN_CONFIG, FUNC_SEL or ENABLE
and never call the LP controller. -/
def Obligations.LevelOperationsAreNotConfiguration : Prop :=
  ∀ (i : Instr) (s t : State), isLevelOp i = true → exec i s = .next t →
    t.ioMux = s.ioMux ∧ t.inHold = s.inHold ∧ t.pinConfig = s.pinConfig ∧ t.funcSel = s.funcSel ∧
    t.enable = s.enable ∧ t.lpLog = s.lpLog

/-- R118: SET_LEVEL does the same to OUT whatever ENABLE holds, ENABLE never makes it fault or refuse, and on a
bonded pin the OUT bit changes to the level whatever ENABLE holds. -/
def Obligations.SetLevelIgnoresOutputEnable : Prop :=
  ∀ (s : State) (e : Banked Word) (pin : Nat) (level : Bool),
    ∃ t, exec (.setLevel pin level) s = .next t ∧
      exec (.setLevel pin level) { s with enable := e } = .next { t with enable := e } ∧
      ∀ n : Pin, n.val = pin → s.params.bonded.get n = true → t.fault = s.fault ∧ t.refused = s.refused ∧
        (bankGet t.out (bankOf n)).getLsbD (bitOf n).val = level

/-- Two SET_LEVELs on different pins leave the same OUT in either order; on the same pin the later one decides (from
R124). -/
def Obligations.SetLevelsCommute : Prop :=
  ∀ (s : State) (m n : Pin) (a b : Bool), s.params.bonded.get m = true → s.params.bonded.get n = true →
    ∃ t u t' u', exec (.setLevel m.val a) s = .next t ∧ exec (.setLevel n.val b) t = .next u ∧
      exec (.setLevel n.val b) s = .next t' ∧ exec (.setLevel m.val a) t' = .next u' ∧
      (m ≠ n → u.out = u'.out) ∧ (m = n → u.out = t'.out)

/-- GET_LEVEL of a pin whose input is disabled returns IN_HOLD; and every operation that is not an IO_MUX-touching one
on that pin keeps its IN_HOLD and its IO_MUX, so that a second GET_LEVEL returns the same bit (from R35, R119). -/
def Obligations.DisabledInputIsStable : Prop :=
  ∀ (s : State) (n : Pin), agentExists s s.mover = true → s.params.bonded.get n = true →
    (s.params.ioMuxOffset.get n).isSome = true → (s.ioMux.get n).getLsbD s.params.ieBit.val = false →
    (∃ t, exec (.getLevel n.val) s = .next t ∧
      (callerOf t s.mover).results = (callerOf s s.mover).results ++ [.bit (s.inHold.get n)]) ∧
    ∀ (i : Instr) (t : State), (pinOf i ≠ some n.val ∨ touchesIoMux i = false) → exec i s = .next t →
      t.inHold.get n = s.inHold.get n ∧ t.ioMux.get n = s.ioMux.get n

/-! Faults and refusals. -/

/-- R137: an operation whose check fails sets FAULT if it is empty and leaves it otherwise; no register is written and
no LpCall made; the agent gets no result and can move no more; other agents are as before and may move as before;
no step clears FAULT, and no state with FAULT set is an ended run. -/
def Obligations.FailedCheckStopsTheAgent : Prop :=
  (∀ (i : Instr) (s : State) (e : FaultReason), agentExists s s.mover = true → planOf s.params i = .error e →
    ∃ t, exec i s = .next t ∧
      t.fault = (if s.fault = none then some ⟨e, s.mover, (callerOf s s.mover).index⟩ else s.fault) ∧
      t = { s with fault := t.fault, owner := t.owner, contexts := t.contexts } ∧
      callerOf t s.mover = { callerOf s s.mover with halted := some (.faulted e) } ∧
      enabled t s.mover = false ∧ ended t = false ∧
      ∀ a, a ≠ s.mover → callerOf t a = callerOf s a ∧ enabled t a = enabled s a) ∧
  (∀ s t : State, s.fault ≠ none → step s = .next t → t.fault = s.fault) ∧
  ∀ s : State, s.fault ≠ none → ended s = false

/-- R138: for each fault reason, exec sets FAULT (empty before) to it exactly if its cause holds and the operation is
one that raises it, after the reasons before it; the record holds the pin, the agent and its command index; and the
codes are 1, 2 and 3. -/
def Obligations.FaultReasonsAsTabled : Prop :=
  (∀ (i : Instr) (s : State), s.fault = none → ∃ t, exec i s = .next t ∧
    (let record : FaultReason → Option FaultRecord := fun e => some ⟨e, s.mover, (callerOf s s.mover).index⟩
     (∀ pin, t.fault = record (.pinOutOfRange pin) ↔ pinOf i = some pin ∧ 40 ≤ pin) ∧
     (∀ n : Pin, t.fault = record (.pinNotBonded n.val) ↔ pinOf i = some n.val ∧ s.params.bonded.get n = false) ∧
     (∀ n : Pin, t.fault = record (.ioMuxUnmapped n.val) ↔ pinOf i = some n.val ∧ s.params.bonded.get n = true ∧
       touchesIoMux i = true ∧ s.params.ioMuxOffset.get n = none) ∧
     ∀ r, t.fault = some r → t.fault = record r.reason ∧ pinOf i = some (faultPin r.reason))) ∧
  ∀ pin, faultCode (.pinOutOfRange pin) = 1 ∧ faultCode (.pinNotBonded pin) = 2 ∧ faultCode (.ioMuxUnmapped pin) = 3

/-- R141: a turn of an agent whose next command word is refused sets REFUSED for good; the agent gets no result and
can move no more; there is no register access and no LpCall. -/
def Obligations.RefusedWordStopsTheAgent : Prop :=
  (∀ (s : State) (cw : CmdWord) (e : CommandRefusal), agentExists s s.mover = true →
    (callerOf s s.mover).inFlight = none → fetch s = some cw → decode cw = .error e →
    ∃ t, runOperation s = .next t ∧ runMicroStep s = .next t ∧ t.refused = true ∧
      t = { s with refused := true, owner := t.owner, contexts := t.contexts } ∧
      callerOf t s.mover = { callerOf s s.mover with halted := some (.refused e) } ∧
      enabled t s.mover = false ∧ ended t = false ∧ ∀ a, a ≠ s.mover → callerOf t a = callerOf s a) ∧
  ∀ s t : State, s.refused = true → step s = .next t → t.refused = true

/-- R37: at power-on FAULT is empty and REFUSED false; once FAULT holds a record or REFUSED is true, no step changes
it; and a step that sets FAULT records the reason, the moving agent and its command index. -/
def Obligations.FaultRecordIsSticky : Prop :=
  (∀ p own ctxs sched, (State.launch p own ctxs sched).fault = none ∧
    (State.launch p own ctxs sched).refused = false) ∧
  ∀ s t : State, step s = .next t →
    (s.refused = true → t.refused = true) ∧ (∀ r, s.fault = some r → t.fault = some r) ∧
    ∀ r, s.fault = none → t.fault = some r →
      r.agent = t.mover ∧ r.index = (callerOf s r.agent).index ∧
      (callerOf t r.agent).halted = some (.faulted r.reason)

/-! Power-on. -/

/-- At power-on every storage register holds POWER_ON's value where it is given, and a draw of its own where it is
not; IN_HOLD is a draw for every pin (from R155, R156; the draws' numbers are the model's: notes/assumptions/3.md,
5.md); FAULT, REFUSED, LP_LOG and RESULTS are empty, and every agent is
at its first command. -/
def Obligations.LaunchStartsEmpty : Prop :=
  ∀ (p : Params) (own : List CmdWord) (ctxs : List (List CmdWord)) (sched : List Turn),
    let s := State.launch p own ctxs sched
    s.fault = none ∧ s.refused = false ∧ s.lpLog = [] ∧ s.owner.commands = own ∧
    s.contexts.map (·.commands) = ctxs ∧
    (∀ a, (callerOf s a).results = [] ∧ (callerOf s a).index = 0 ∧ (callerOf s a).inFlight = none ∧
      (callerOf s a).halted = none) ∧
    s.out = ⟨p.powerOn.out.lo.getD (Config.powerOnWord 0), p.powerOn.out.hi.getD (Config.powerOnWord 1)⟩ ∧
    s.enable = ⟨p.powerOn.enable.lo.getD (Config.powerOnWord 2), p.powerOn.enable.hi.getD (Config.powerOnWord 3)⟩ ∧
    ∀ n : Pin,
      s.pinConfig.get n = (p.powerOn.pinConfig.get n).getD (Config.powerOnWord (4 + n.val)) ∧
      s.funcSel.get n = (p.powerOn.funcSel.get n).getD (Config.powerOnWord (44 + n.val)) ∧
      s.ioMux.get n = (p.powerOn.ioMux.get n).getD (Config.powerOnWord (84 + n.val)) ∧
      s.inHold.get n = Config.powerOnHold n.val

/-! Turns and steps. -/

/-- A step runs the decoded operation: where the next turn is a whole operation of an agent that is inside none, and
its next command decodes to i, the step is exec of i by that agent (from R56, R65; that a turn can be a whole
operation is the model's choice: notes/assumptions/10.md); and the word withFetchWord places is the next one run
(withFetchWord stands for a load from outside by the model's choice: notes/assumptions/9.md). -/
def Obligations.StepRunsDecodedOperation : Prop :=
  (∀ (s s' : State) (a : Agent) (cw : CmdWord) (i : Instr), s.params.wellFormed = true →
    nextTurn s = some (.operation a, s') → (callerOf s a).inFlight = none →
    (callerOf s a).commands[(callerOf s a).index]? = some cw → decode cw = .ok i →
    step s = exec i s' ∧ s' = { s with schedule := s'.schedule, mover := a, draws := s'.draws }) ∧
  ∀ (s : State) (w : Nat) (i : Instr), s.params.wellFormed = true → w < 2 ^ 16 →
    decodeTableWord 16 w = some i →
    ∃ s', nextTurn (s.withFetchWord 16 w) = some (.operation .owner, s') ∧
      step (s.withFetchWord 16 w) = exec i s' ∧ s'.mover = .owner

/-- The next turn is one of an agent that may take a step, and there is a next turn where any agent may take one (from
R65). That the schedule's first turn is taken where its agent may move, and that taking a turn changes the schedule,
the mover and the draw counter, is the model's choice (notes/assumptions/6.md): R65 lets any enabled agent step. -/
def Obligations.NextTurnIsOfAnEnabledAgent : Prop :=
  (∀ (s s' : State) (t : Turn), nextTurn s = some (t, s') →
    enabled s t.agent = true ∧ s' = { s with schedule := s'.schedule, mover := t.agent, draws := s'.draws }) ∧
  (∀ (s : State) (t : Turn) (ts : List Turn), s.schedule = t :: ts → enabled s t.agent = true →
    nextTurn s = some (t, { s with schedule := ts, mover := t.agent })) ∧
  ∀ (s : State) (a : Agent), enabled s a = true → nextTurn s ≠ none

/-- A parameter set that breaks R9 is refused; the parameters never change (from R9; the clauses the model adds to R9's
are its own reading: notes/assumptions/2.md). -/
def Obligations.ParametersAreCheckedAndFixed : Prop :=
  (∀ s : State, s.params.wellFormed = false → step s = .refused .badParameters) ∧
  ∀ s t : State, step s = .next t → t.params = s.params

/-- A step changes the record of one agent only, and LP_LOG and every RESULTS list only grow (from R38, R39, R152). -/
def Obligations.StepExtendsHistories : Prop :=
  ∀ s t : State, step s = .next t →
    (∃ es, t.lpLog = s.lpLog ++ es ∧ ∀ e ∈ es, e.agent = t.mover) ∧
    (∀ a, a ≠ t.mover → callerOf t a = callerOf s a) ∧
    ∀ a, ∃ rs, (callerOf t a).results = (callerOf s a).results ++ rs ∧ rs.length ≤ 1

/-- RESET's micro-steps in order: for an LP-capable pin the three LP calls, then the four writes, the output level
last (R62, R101); and the number of micro-steps of each operation on a pin that passes its checks
(95_test_vectors.md section 1). -/
def Obligations.MicroStepsInOrder : Prop :=
  ∀ (p : Params) (n : Pin) (v : Bool), p.bonded.get n = true → (p.ioMuxOffset.get n).isSome = true →
    (∃ plan, planOf p (.reset n.val) = .ok plan ∧ plan.steps =
      (if p.lpCapable.get n then
        [.call .detach n none, .call .pullup n (some true), .call .pulldown n (some false)] else []) ++
      [.write (.pinConfig n) 0, .write (.funcSel n) p.funcSelDisconnected, .write (.ioMux n) p.ioMuxDefault,
       .write (.outClear (bankOf n)) (pinMask n)]) ∧
    (∃ plan, planOf p (.setPullup n.val v) = .ok plan ∧ plan.steps.length = if p.lpCapable.get n then 1 else 2) ∧
    (∃ plan, planOf p (.setPulldown n.val v) = .ok plan ∧ plan.steps.length = if p.lpCapable.get n then 1 else 2) ∧
    (∃ plan, planOf p (.setInputEnable n.val v) = .ok plan ∧ plan.steps.length = 2) ∧
    (∃ plan, planOf p (.setOpenDrain n.val v) = .ok plan ∧ plan.steps.length = 2) ∧
    (∃ plan, planOf p (.setOutputEnable n.val v) = .ok plan ∧ plan.steps.length = 1) ∧
    (∃ plan, planOf p (.setLevel n.val v) = .ok plan ∧ plan.steps.length = 1) ∧
    (∃ plan, planOf p (.getLevel n.val) = .ok plan ∧ plan.steps.length = 1) ∧
    (∃ plan, planOf p .getAllInputs = .ok plan ∧ plan.steps = [.read (.input .lo), .read (.input .hi)]) ∧
    (∃ plan, planOf p .getAllOutputs = .ok plan ∧ plan.steps = [.read (.out .lo), .read (.out .hi)])

/-- A whole operation is its micro-steps in a row: from any state whose next turn is one of an agent inside no
operation, at most 7 micro-step turns of that agent, taken by step one after another, reach exactly the state its
one whole-operation turn reaches (from R55, R56; the two kinds of turn and the schedule that lists them are the
model's choice: notes/assumptions/6.md, 10.md). -/
def Obligations.OperationIsItsMicroSteps : Prop :=
  ∀ (s : State) (a : Agent) (rest : List Turn), s.params.wellFormed = true → enabled s a = true →
    (callerOf s a).inFlight = none →
    ∃ k, 1 ≤ k ∧ k ≤ 7 ∧
      Sys2Proof.core.run k { s with schedule := List.replicate k (.microStep a) ++ rest } =
        step { s with schedule := .operation a :: rest }

/-- An agent's write between the read and the write of another's read-modify-write of the same register is lost (from
R57). Two callers are about to run SET_PULLUP and SET_INPUT_ENABLE on one pin that is not LP-capable; read, read,
write, write leaves the second caller's bit set and the first caller's bit as it was. The schedule that orders the
micro-steps is the model's choice: notes/assumptions/6.md. -/
def Obligations.InterleavedUpdateIsLost : Prop :=
  ∀ (s : State) (n : Pin) (a b : Agent) (up ie : Bool) (rest : List Turn), s.params.wellFormed = true → a ≠ b →
    s.params.bonded.get n = true → (s.params.ioMuxOffset.get n).isSome = true → s.params.lpCapable.get n = false →
    enabled s a = true → enabled s b = true →
    (callerOf s a).inFlight = none → (callerOf s b).inFlight = none →
    (callerOf s a).commands[(callerOf s a).index]? = some (encode (.setPullup n.val up)) →
    (callerOf s b).commands[(callerOf s b).index]? = some (encode (.setInputEnable n.val ie)) →
    s.schedule = [.microStep a, .microStep b, .microStep a, .microStep b] ++ rest →
    ∃ t, Sys2Proof.core.run 4 s = .next t ∧ t.fault = s.fault ∧
      ∀ k : Fin 32, (t.ioMux.get n).getLsbD k.val =
        if k = s.params.ieBit then ie else (s.ioMux.get n).getLsbD k.val

/-- A SET_LEVEL of a high-bank pin between the two reads of another agent's GET_ALL_OUTPUTS is seen by it, and one of a
low-bank pin is not: the high half is of a later instant than the low half (from R59). The schedule and its
whole-operation turn are the model's choice: notes/assumptions/6.md, 10.md. -/
def Obligations.SnapshotCanBeTorn : Prop :=
  ∀ (s : State) (n : Pin) (a b : Agent) (level : Bool) (rest : List Turn), s.params.wellFormed = true → a ≠ b →
    s.params.bonded.get n = true → enabled s a = true → enabled s b = true →
    (callerOf s a).inFlight = none → (callerOf s b).inFlight = none →
    (callerOf s a).commands[(callerOf s a).index]? = some (encode .getAllOutputs) →
    (callerOf s b).commands[(callerOf s b).index]? = some (encode (.setLevel n.val level)) →
    s.schedule = [.microStep a, .operation b, .microStep a] ++ rest →
    ∃ t w, Sys2Proof.core.run 3 s = .next t ∧
      (callerOf t a).results = (callerOf s a).results ++ [.word64 w] ∧
      (bankGet t.out (bankOf n)).getLsbD (bitOf n).val = level ∧
      (32 ≤ n.val → w.getLsbD n.val = level) ∧ (n.val < 32 → w.getLsbD n.val = s.out.lo.getLsbD n.val)

/-- Where the records agree and no agent may move, the run has ended exactly if FAULT is empty and REFUSED is false
(from R69). The model's choice: an ended run stays as it is (notes/assumptions/7.md), and a failed one answers with
FAULT's record, or with the refusal where FAULT is empty (DEDUCED: notes/assumptions/8.md). -/
def Obligations.RunsEndOrFail : Prop :=
  ∀ s : State, recordsOk s = true → s.params.wellFormed = true → enabledAgents s = [] →
    (ended s = true ↔ s.fault = none ∧ s.refused = false) ∧ (ended s = true → step s = .next s) ∧
    (∀ r, s.fault = some r → step s = .fault (.failedRun r)) ∧
    (s.fault = none → s.refused = true → step s = .refused .failedByRefusal)

/-! Invariants of the whole machine. -/

/-- The records agree at power-on, whatever the parameters, the command lists and the schedule. -/
def Obligations.RecordsAgreeAtLaunch : Prop :=
  recordsOk State.reset = true ∧ ∀ p own ctxs sched, recordsOk (State.launch p own ctxs sched) = true

/-- Every step keeps the records in agreement: each agent has one result for each command it completed and an index
in its list; the operation it is inside of is the rest of the plan of its own command; an agent that stopped did so at
a command that is refused or whose checks fail; FAULT names such an agent, its reason and its index; REFUSED is set
only where such an agent is (from R37, R39, R56, R65, R137, R141; that an agent holds its operation in progress and
why it stopped is DEDUCED: notes/assumptions/16.md). -/
def Obligations.StepKeepsRecords : Prop :=
  ∀ s t : State, recordsOk s = true → step s = .next t → recordsOk t = true

/-- From a state whose records agree, under admitted parameters, a step stops only as a failed run does: no agent may
move, and the answer is FAULT's record, or the refusal with FAULT empty and REFUSED set (these two answers are
DEDUCED: notes/assumptions/8.md). In particular no operation ever reads a port, writes IN or touches a register that
does not exist (from R32, R48, R50, R69). -/
def Obligations.OnlyFailedRunsStop : Prop :=
  ∀ s : State, recordsOk s = true → s.params.wellFormed = true →
    (∀ e, step s = .fault e → ∃ r, e = .failedRun r ∧ s.fault = some r ∧ enabledAgents s = []) ∧
    (∀ e, step s = .refused e → e = .failedByRefusal ∧ s.fault = none ∧ s.refused = true ∧ enabledAgents s = [])

/-- No step sets or clears the reserved bits 31..8 of OUT[HI] and ENABLE[HI] (from R33; that they are stored is
DEDUCED: notes/assumptions/13.md). -/
def Obligations.ReservedBitsAreNeverWritten : Prop :=
  ∀ s t : State, recordsOk s = true → step s = .next t →
    ∀ k, 8 ≤ k → t.out.hi.getLsbD k = s.out.hi.getLsbD k ∧ t.enable.hi.getLsbD k = s.enable.hi.getLsbD k

/-- No step changes anything of a pin that is not bonded out: its bits of OUT and ENABLE, its three registers and its
IN_HOLD; nor the entry of a pin without an IO_MUX register (from R32, R34; that such a pin has entries in the tables
is the model's choice: notes/assumptions/5.md, 12.md). -/
def Obligations.UnreachablePinsAreKept : Prop :=
  ∀ s t : State, recordsOk s = true → step s = .next t → ∀ n : Pin,
    (s.params.bonded.get n = false →
      (bankGet t.out (bankOf n)).getLsbD (bitOf n).val = (bankGet s.out (bankOf n)).getLsbD (bitOf n).val ∧
      (bankGet t.enable (bankOf n)).getLsbD (bitOf n).val = (bankGet s.enable (bankOf n)).getLsbD (bitOf n).val ∧
      t.pinConfig.get n = s.pinConfig.get n ∧ t.funcSel.get n = s.funcSel.get n) ∧
    (s.params.bonded.get n = false ∨ s.params.ioMuxOffset.get n = none →
      t.ioMux.get n = s.ioMux.get n ∧ t.inHold.get n = s.inHold.get n)

/-- Every step of a run that has an agent to move uses up work, so no operation blocks and no run goes on for ever
(from R170, R171). -/
def Obligations.EveryTurnUsesUpWork : Prop :=
  ∀ s t : State, recordsOk s = true → enabledAgents s ≠ [] → step s = .next t → workLeft t < workLeft s

/-- From a state whose records agree, under admitted parameters, some number of steps, at most the work left, reaches
a state where no agent may move (from R69, R170, R171). -/
def Obligations.RunsComeToRest : Prop :=
  ∀ s : State, recordsOk s = true → s.params.wellFormed = true →
    ∃ k t, k ≤ workLeft s ∧ Sys2Proof.core.run k s = .next t ∧ enabledAgents t = [] ∧ recordsOk t = true
end

