-- ==== Sys2Proof/Laws/State.lean ====
section
/-! SUPPORT. The fields of the state after each named update, and the laws of banks, pin tables and callers. -/

namespace Sys2Proof.Machine

/-! Banks and pin tables. -/

@[simp] theorem bankGet_bankSet {α : Type} (x : Banked α) (b c : Bank) (v : α) :
    bankGet (bankSet x b v) c = if b = c then v else bankGet x c := by
  cases b <;> cases c <;> rfl

@[simp] theorem bankSet_bankGet {α : Type} (x : Banked α) (b : Bank) : bankSet x b (bankGet x b) = x := by
  cases b <;> rfl

@[simp] theorem bankSet_bankSet {α : Type} (x : Banked α) (b : Bank) (v w : α) :
    bankSet (bankSet x b v) b w = bankSet x b w := by
  cases b <;> rfl

@[simp] theorem get_putPin {α : Type} (t : PinTable α) (n m : Pin) (v : α) :
    (putPin t n v).get m = if n = m then v else t.get m := by
  have h : (putPin t n v).get m = (t.set n.val v n.isLt)[m.val] := rfl
  rw [h, Vector.getElem_set]
  simp only [Fin.ext_iff]
  rfl

@[simp] theorem putPin_putPin {α : Type} (t : PinTable α) (n : Pin) (v w : α) :
    putPin (putPin t n v) n w = putPin t n w := by
  simp [putPin]

theorem pinTable_ext {α : Type} {t u : PinTable α} (h : ∀ n : Pin, t.get n = u.get n) : t = u :=
  Vector.ext fun i hi => h ⟨i, hi⟩

/-! `drawn`. -/

@[simp] theorem drawn_params (s : State) : (drawn s).params = s.params := rfl
@[simp] theorem drawn_out (s : State) : (drawn s).out = s.out := rfl
@[simp] theorem drawn_enable (s : State) : (drawn s).enable = s.enable := rfl
@[simp] theorem drawn_pinConfig (s : State) : (drawn s).pinConfig = s.pinConfig := rfl
@[simp] theorem drawn_funcSel (s : State) : (drawn s).funcSel = s.funcSel := rfl
@[simp] theorem drawn_ioMux (s : State) : (drawn s).ioMux = s.ioMux := rfl
@[simp] theorem drawn_inHold (s : State) : (drawn s).inHold = s.inHold := rfl
@[simp] theorem drawn_fault (s : State) : (drawn s).fault = s.fault := rfl
@[simp] theorem drawn_refused (s : State) : (drawn s).refused = s.refused := rfl
@[simp] theorem drawn_lpLog (s : State) : (drawn s).lpLog = s.lpLog := rfl
@[simp] theorem drawn_owner (s : State) : (drawn s).owner = s.owner := rfl
@[simp] theorem drawn_contexts (s : State) : (drawn s).contexts = s.contexts := rfl
@[simp] theorem drawn_mover (s : State) : (drawn s).mover = s.mover := rfl
@[simp] theorem drawn_schedule (s : State) : (drawn s).schedule = s.schedule := rfl

@[simp] theorem drawn_draws (s : State) : (drawn s).draws = s.draws + 1 := rfl

/-! `setCaller`. -/

@[simp] theorem setCaller_params (s : State) (a : Agent) (c : Caller) : (setCaller s a c).params = s.params := by
  rcases a with _ | _ | i <;> rfl
@[simp] theorem setCaller_out (s : State) (a : Agent) (c : Caller) : (setCaller s a c).out = s.out := by
  rcases a with _ | _ | i <;> rfl
@[simp] theorem setCaller_enable (s : State) (a : Agent) (c : Caller) : (setCaller s a c).enable = s.enable := by
  rcases a with _ | _ | i <;> rfl
@[simp] theorem setCaller_pinConfig (s : State) (a : Agent) (c : Caller) : (setCaller s a c).pinConfig = s.pinConfig := by
  rcases a with _ | _ | i <;> rfl
@[simp] theorem setCaller_funcSel (s : State) (a : Agent) (c : Caller) : (setCaller s a c).funcSel = s.funcSel := by
  rcases a with _ | _ | i <;> rfl
@[simp] theorem setCaller_ioMux (s : State) (a : Agent) (c : Caller) : (setCaller s a c).ioMux = s.ioMux := by
  rcases a with _ | _ | i <;> rfl
@[simp] theorem setCaller_inHold (s : State) (a : Agent) (c : Caller) : (setCaller s a c).inHold = s.inHold := by
  rcases a with _ | _ | i <;> rfl
@[simp] theorem setCaller_fault (s : State) (a : Agent) (c : Caller) : (setCaller s a c).fault = s.fault := by
  rcases a with _ | _ | i <;> rfl
@[simp] theorem setCaller_refused (s : State) (a : Agent) (c : Caller) : (setCaller s a c).refused = s.refused := by
  rcases a with _ | _ | i <;> rfl
@[simp] theorem setCaller_lpLog (s : State) (a : Agent) (c : Caller) : (setCaller s a c).lpLog = s.lpLog := by
  rcases a with _ | _ | i <;> rfl
@[simp] theorem setCaller_mover (s : State) (a : Agent) (c : Caller) : (setCaller s a c).mover = s.mover := by
  rcases a with _ | _ | i <;> rfl
@[simp] theorem setCaller_schedule (s : State) (a : Agent) (c : Caller) : (setCaller s a c).schedule = s.schedule := by
  rcases a with _ | _ | i <;> rfl
@[simp] theorem setCaller_draws (s : State) (a : Agent) (c : Caller) : (setCaller s a c).draws = s.draws := by
  rcases a with _ | _ | i <;> rfl

/-! `complete`. -/

@[simp] theorem complete_params (r : Result) (s : State) : (complete r s).params = s.params := by
  simp [complete]
@[simp] theorem complete_out (r : Result) (s : State) : (complete r s).out = s.out := by
  simp [complete]
@[simp] theorem complete_enable (r : Result) (s : State) : (complete r s).enable = s.enable := by
  simp [complete]
@[simp] theorem complete_pinConfig (r : Result) (s : State) : (complete r s).pinConfig = s.pinConfig := by
  simp [complete]
@[simp] theorem complete_funcSel (r : Result) (s : State) : (complete r s).funcSel = s.funcSel := by
  simp [complete]
@[simp] theorem complete_ioMux (r : Result) (s : State) : (complete r s).ioMux = s.ioMux := by
  simp [complete]
@[simp] theorem complete_inHold (r : Result) (s : State) : (complete r s).inHold = s.inHold := by
  simp [complete]
@[simp] theorem complete_fault (r : Result) (s : State) : (complete r s).fault = s.fault := by
  simp [complete]
@[simp] theorem complete_refused (r : Result) (s : State) : (complete r s).refused = s.refused := by
  simp [complete]
@[simp] theorem complete_lpLog (r : Result) (s : State) : (complete r s).lpLog = s.lpLog := by
  simp [complete]
@[simp] theorem complete_mover (r : Result) (s : State) : (complete r s).mover = s.mover := by
  simp [complete]
@[simp] theorem complete_schedule (r : Result) (s : State) : (complete r s).schedule = s.schedule := by
  simp [complete]
@[simp] theorem complete_draws (r : Result) (s : State) : (complete r s).draws = s.draws := by
  simp [complete]

/-! `setInFlight`. -/

@[simp] theorem setInFlight_params (f : Option InFlight) (s : State) : (setInFlight f s).params = s.params := by
  simp [setInFlight]
@[simp] theorem setInFlight_out (f : Option InFlight) (s : State) : (setInFlight f s).out = s.out := by
  simp [setInFlight]
@[simp] theorem setInFlight_enable (f : Option InFlight) (s : State) : (setInFlight f s).enable = s.enable := by
  simp [setInFlight]
@[simp] theorem setInFlight_pinConfig (f : Option InFlight) (s : State) : (setInFlight f s).pinConfig = s.pinConfig := by
  simp [setInFlight]
@[simp] theorem setInFlight_funcSel (f : Option InFlight) (s : State) : (setInFlight f s).funcSel = s.funcSel := by
  simp [setInFlight]
@[simp] theorem setInFlight_ioMux (f : Option InFlight) (s : State) : (setInFlight f s).ioMux = s.ioMux := by
  simp [setInFlight]
@[simp] theorem setInFlight_inHold (f : Option InFlight) (s : State) : (setInFlight f s).inHold = s.inHold := by
  simp [setInFlight]
@[simp] theorem setInFlight_fault (f : Option InFlight) (s : State) : (setInFlight f s).fault = s.fault := by
  simp [setInFlight]
@[simp] theorem setInFlight_refused (f : Option InFlight) (s : State) : (setInFlight f s).refused = s.refused := by
  simp [setInFlight]
@[simp] theorem setInFlight_lpLog (f : Option InFlight) (s : State) : (setInFlight f s).lpLog = s.lpLog := by
  simp [setInFlight]
@[simp] theorem setInFlight_mover (f : Option InFlight) (s : State) : (setInFlight f s).mover = s.mover := by
  simp [setInFlight]
@[simp] theorem setInFlight_schedule (f : Option InFlight) (s : State) : (setInFlight f s).schedule = s.schedule := by
  simp [setInFlight]
@[simp] theorem setInFlight_draws (f : Option InFlight) (s : State) : (setInFlight f s).draws = s.draws := by
  simp [setInFlight]

/-! `haltMover`. -/

@[simp] theorem haltMover_params (h : Halt) (s : State) : (haltMover h s).params = s.params := by
  simp [haltMover]
@[simp] theorem haltMover_out (h : Halt) (s : State) : (haltMover h s).out = s.out := by
  simp [haltMover]
@[simp] theorem haltMover_enable (h : Halt) (s : State) : (haltMover h s).enable = s.enable := by
  simp [haltMover]
@[simp] theorem haltMover_pinConfig (h : Halt) (s : State) : (haltMover h s).pinConfig = s.pinConfig := by
  simp [haltMover]
@[simp] theorem haltMover_funcSel (h : Halt) (s : State) : (haltMover h s).funcSel = s.funcSel := by
  simp [haltMover]
@[simp] theorem haltMover_ioMux (h : Halt) (s : State) : (haltMover h s).ioMux = s.ioMux := by
  simp [haltMover]
@[simp] theorem haltMover_inHold (h : Halt) (s : State) : (haltMover h s).inHold = s.inHold := by
  simp [haltMover]
@[simp] theorem haltMover_fault (h : Halt) (s : State) : (haltMover h s).fault = s.fault := by
  simp [haltMover]
@[simp] theorem haltMover_refused (h : Halt) (s : State) : (haltMover h s).refused = s.refused := by
  simp [haltMover]
@[simp] theorem haltMover_lpLog (h : Halt) (s : State) : (haltMover h s).lpLog = s.lpLog := by
  simp [haltMover]
@[simp] theorem haltMover_mover (h : Halt) (s : State) : (haltMover h s).mover = s.mover := by
  simp [haltMover]
@[simp] theorem haltMover_schedule (h : Halt) (s : State) : (haltMover h s).schedule = s.schedule := by
  simp [haltMover]
@[simp] theorem haltMover_draws (h : Halt) (s : State) : (haltMover h s).draws = s.draws := by
  simp [haltMover]

/-! `raiseFault`. -/

@[simp] theorem raiseFault_params (e : FaultReason) (s : State) : (raiseFault e s).params = s.params := by
  simp [raiseFault]
@[simp] theorem raiseFault_out (e : FaultReason) (s : State) : (raiseFault e s).out = s.out := by
  simp [raiseFault]
@[simp] theorem raiseFault_enable (e : FaultReason) (s : State) : (raiseFault e s).enable = s.enable := by
  simp [raiseFault]
@[simp] theorem raiseFault_pinConfig (e : FaultReason) (s : State) : (raiseFault e s).pinConfig = s.pinConfig := by
  simp [raiseFault]
@[simp] theorem raiseFault_funcSel (e : FaultReason) (s : State) : (raiseFault e s).funcSel = s.funcSel := by
  simp [raiseFault]
@[simp] theorem raiseFault_ioMux (e : FaultReason) (s : State) : (raiseFault e s).ioMux = s.ioMux := by
  simp [raiseFault]
@[simp] theorem raiseFault_inHold (e : FaultReason) (s : State) : (raiseFault e s).inHold = s.inHold := by
  simp [raiseFault]
@[simp] theorem raiseFault_refused (e : FaultReason) (s : State) : (raiseFault e s).refused = s.refused := by
  simp [raiseFault]
@[simp] theorem raiseFault_lpLog (e : FaultReason) (s : State) : (raiseFault e s).lpLog = s.lpLog := by
  simp [raiseFault]
@[simp] theorem raiseFault_mover (e : FaultReason) (s : State) : (raiseFault e s).mover = s.mover := by
  simp [raiseFault]
@[simp] theorem raiseFault_schedule (e : FaultReason) (s : State) : (raiseFault e s).schedule = s.schedule := by
  simp [raiseFault]
@[simp] theorem raiseFault_draws (e : FaultReason) (s : State) : (raiseFault e s).draws = s.draws := by
  simp [raiseFault]

@[simp] theorem raiseFault_fault (e : FaultReason) (s : State) :
    (raiseFault e s).fault = s.fault.or (some ⟨e, s.mover, (callerOf s s.mover).index⟩) := by
  simp [raiseFault]

/-! `refuseCommand`. -/

@[simp] theorem refuseCommand_params (e : CommandRefusal) (s : State) : (refuseCommand e s).params = s.params := by
  simp [refuseCommand]
@[simp] theorem refuseCommand_out (e : CommandRefusal) (s : State) : (refuseCommand e s).out = s.out := by
  simp [refuseCommand]
@[simp] theorem refuseCommand_enable (e : CommandRefusal) (s : State) : (refuseCommand e s).enable = s.enable := by
  simp [refuseCommand]
@[simp] theorem refuseCommand_pinConfig (e : CommandRefusal) (s : State) : (refuseCommand e s).pinConfig = s.pinConfig := by
  simp [refuseCommand]
@[simp] theorem refuseCommand_funcSel (e : CommandRefusal) (s : State) : (refuseCommand e s).funcSel = s.funcSel := by
  simp [refuseCommand]
@[simp] theorem refuseCommand_ioMux (e : CommandRefusal) (s : State) : (refuseCommand e s).ioMux = s.ioMux := by
  simp [refuseCommand]
@[simp] theorem refuseCommand_inHold (e : CommandRefusal) (s : State) : (refuseCommand e s).inHold = s.inHold := by
  simp [refuseCommand]
@[simp] theorem refuseCommand_fault (e : CommandRefusal) (s : State) : (refuseCommand e s).fault = s.fault := by
  simp [refuseCommand]
@[simp] theorem refuseCommand_lpLog (e : CommandRefusal) (s : State) : (refuseCommand e s).lpLog = s.lpLog := by
  simp [refuseCommand]
@[simp] theorem refuseCommand_mover (e : CommandRefusal) (s : State) : (refuseCommand e s).mover = s.mover := by
  simp [refuseCommand]
@[simp] theorem refuseCommand_schedule (e : CommandRefusal) (s : State) : (refuseCommand e s).schedule = s.schedule := by
  simp [refuseCommand]
@[simp] theorem refuseCommand_draws (e : CommandRefusal) (s : State) : (refuseCommand e s).draws = s.draws := by
  simp [refuseCommand]

@[simp] theorem refuseCommand_refused (e : CommandRefusal) (s : State) : (refuseCommand e s).refused = true := by
  simp [refuseCommand]

/-! `writeIoMux`. -/

@[simp] theorem writeIoMux_params (n : Pin) (v : Word) (s : State) : (writeIoMux n v s).params = s.params := rfl
@[simp] theorem writeIoMux_out (n : Pin) (v : Word) (s : State) : (writeIoMux n v s).out = s.out := rfl
@[simp] theorem writeIoMux_enable (n : Pin) (v : Word) (s : State) : (writeIoMux n v s).enable = s.enable := rfl
@[simp] theorem writeIoMux_pinConfig (n : Pin) (v : Word) (s : State) : (writeIoMux n v s).pinConfig = s.pinConfig := rfl
@[simp] theorem writeIoMux_funcSel (n : Pin) (v : Word) (s : State) : (writeIoMux n v s).funcSel = s.funcSel := rfl
@[simp] theorem writeIoMux_fault (n : Pin) (v : Word) (s : State) : (writeIoMux n v s).fault = s.fault := rfl
@[simp] theorem writeIoMux_refused (n : Pin) (v : Word) (s : State) : (writeIoMux n v s).refused = s.refused := rfl
@[simp] theorem writeIoMux_lpLog (n : Pin) (v : Word) (s : State) : (writeIoMux n v s).lpLog = s.lpLog := rfl
@[simp] theorem writeIoMux_owner (n : Pin) (v : Word) (s : State) : (writeIoMux n v s).owner = s.owner := rfl
@[simp] theorem writeIoMux_contexts (n : Pin) (v : Word) (s : State) : (writeIoMux n v s).contexts = s.contexts := rfl
@[simp] theorem writeIoMux_mover (n : Pin) (v : Word) (s : State) : (writeIoMux n v s).mover = s.mover := rfl
@[simp] theorem writeIoMux_schedule (n : Pin) (v : Word) (s : State) : (writeIoMux n v s).schedule = s.schedule := rfl

@[simp] theorem writeIoMux_ioMux (n : Pin) (v : Word) (s : State) :
    (writeIoMux n v s).ioMux = putPin s.ioMux n v := rfl
@[simp] theorem writeIoMux_inHold (n : Pin) (v : Word) (s : State) :
    (writeIoMux n v s).inHold = putPin s.inHold n (Config.holdBit s.draws) := rfl
@[simp] theorem writeIoMux_draws (n : Pin) (v : Word) (s : State) :
    (writeIoMux n v s).draws = s.draws + 1 := rfl

/-! `lpCall`. -/

@[simp] theorem lpCall_params (q : LpPrim) (n : Pin) (en : Option Bool) (s : State) : (lpCall q n en s).params = s.params := rfl
@[simp] theorem lpCall_out (q : LpPrim) (n : Pin) (en : Option Bool) (s : State) : (lpCall q n en s).out = s.out := rfl
@[simp] theorem lpCall_enable (q : LpPrim) (n : Pin) (en : Option Bool) (s : State) : (lpCall q n en s).enable = s.enable := rfl
@[simp] theorem lpCall_pinConfig (q : LpPrim) (n : Pin) (en : Option Bool) (s : State) : (lpCall q n en s).pinConfig = s.pinConfig := rfl
@[simp] theorem lpCall_funcSel (q : LpPrim) (n : Pin) (en : Option Bool) (s : State) : (lpCall q n en s).funcSel = s.funcSel := rfl
@[simp] theorem lpCall_ioMux (q : LpPrim) (n : Pin) (en : Option Bool) (s : State) : (lpCall q n en s).ioMux = s.ioMux := rfl
@[simp] theorem lpCall_inHold (q : LpPrim) (n : Pin) (en : Option Bool) (s : State) : (lpCall q n en s).inHold = s.inHold := rfl
@[simp] theorem lpCall_fault (q : LpPrim) (n : Pin) (en : Option Bool) (s : State) : (lpCall q n en s).fault = s.fault := rfl
@[simp] theorem lpCall_refused (q : LpPrim) (n : Pin) (en : Option Bool) (s : State) : (lpCall q n en s).refused = s.refused := rfl
@[simp] theorem lpCall_owner (q : LpPrim) (n : Pin) (en : Option Bool) (s : State) : (lpCall q n en s).owner = s.owner := rfl
@[simp] theorem lpCall_contexts (q : LpPrim) (n : Pin) (en : Option Bool) (s : State) : (lpCall q n en s).contexts = s.contexts := rfl
@[simp] theorem lpCall_mover (q : LpPrim) (n : Pin) (en : Option Bool) (s : State) : (lpCall q n en s).mover = s.mover := rfl
@[simp] theorem lpCall_schedule (q : LpPrim) (n : Pin) (en : Option Bool) (s : State) : (lpCall q n en s).schedule = s.schedule := rfl

@[simp] theorem lpCall_lpLog (q : LpPrim) (n : Pin) (en : Option Bool) (s : State) :
    (lpCall q n en s).lpLog = s.lpLog ++ [⟨s.mover, q, n, en, lpAnswer s⟩] := rfl
@[simp] theorem lpCall_draws (q : LpPrim) (n : Pin) (en : Option Bool) (s : State) :
    (lpCall q n en s).draws = s.draws + 1 := rfl

/-! Callers. -/

theorem callerOf_congr {s t : State} (ho : t.owner = s.owner) (hc : t.contexts = s.contexts) (a : Agent) :
    callerOf t a = callerOf s a := by
  rcases a with _ | _ | i <;> simp [callerOf, ho, hc]

theorem agentExists_congr {s t : State} (hc : t.contexts.length = s.contexts.length) (a : Agent) :
    agentExists t a = agentExists s a := by
  rcases a with _ | _ | i <;> simp [agentExists, hc]

theorem callerOf_setCaller_self {s : State} {a : Agent} (h : agentExists s a = true) (c : Caller) :
    callerOf (setCaller s a c) a = c := by
  rcases a with _ | _ | i <;> simp_all [callerOf, setCaller, agentExists]

theorem callerOf_setCaller_ne {s : State} {a b : Agent} (h : a ≠ b) (c : Caller) :
    callerOf (setCaller s a c) b = callerOf s b := by
  rcases a with _ | _ | i <;> rcases b with _ | _ | j <;> simp_all [callerOf, setCaller, List.getD]

/-- Replacing an agent's record changes the callers and nothing else. -/
theorem setCaller_eq (s : State) (a : Agent) (c : Caller) :
    setCaller s a c = { s with owner := (setCaller s a c).owner, contexts := (setCaller s a c).contexts } := by
  rcases a with _ | _ | i <;> rfl

theorem setCaller_contexts_length (s : State) (a : Agent) (c : Caller) :
    (setCaller s a c).contexts.length = s.contexts.length := by
  rcases a with _ | _ | i <;> simp [setCaller]

@[simp] theorem agentExists_setCaller (s : State) (a b : Agent) (c : Caller) :
    agentExists (setCaller s a c) b = agentExists s b :=
  agentExists_congr (setCaller_contexts_length s a c) b

@[simp] theorem agents_setCaller (s : State) (a : Agent) (c : Caller) :
    agents (setCaller s a c) = agents s := by
  simp [agents, setCaller_contexts_length]

theorem agents_congr {s t : State} (hc : t.contexts.length = s.contexts.length) : agents t = agents s := by
  simp [agents, hc]

theorem mem_agents {s : State} {a : Agent} : a ∈ agents s ↔ agentExists s a = true := by
  rcases a with _ | _ | i <;> simp [agents, agentExists]

theorem setCaller_setCaller (s : State) (a : Agent) (c d : Caller) :
    setCaller (setCaller s a c) a d = setCaller s a d := by
  rcases a with _ | _ | i <;> simp [setCaller]

theorem agents_nodup (s : State) : (agents s).Nodup := by
  rw [agents, List.nodup_cons]
  exact ⟨by simp, List.nodup_range.map fun i j h => by simpa using h⟩

end Sys2Proof.Machine
end

