-- ==== Sys2Proof/Laws/Registers.lean ====
section
/-! SUPPORT. What a register read, a register write and an LpCall can do (20_memory.md R45 to R50). -/

namespace Sys2Proof.Machine

/-- The register exists and a micro-step may read it. -/
def readable (p : Params) : Reg → Bool
  | .out _ => true
  | .enable _ => true
  | .input _ => true
  | .pinConfig _ => true
  | .funcSel _ => true
  | .ioMux n => isMapped p n
  | .outSet _ => false
  | .outClear _ => false
  | .enableSet _ => false
  | .enableClear _ => false

/-- The register exists and a micro-step may write it. -/
def writable (p : Params) : Reg → Bool
  | .input _ => false
  | .ioMux n => isMapped p n
  | .out _ => true
  | .outSet _ => true
  | .outClear _ => true
  | .enable _ => true
  | .enableSet _ => true
  | .enableClear _ => true
  | .pinConfig _ => true
  | .funcSel _ => true

/-- A read that answers changes nothing but the draw counter. -/
theorem readReg_next {r : Reg} {s t : State} {w : Word} (h : readReg r s = .next (w, t)) :
    t = s ∨ t = drawn s := by
  cases r with
  | ioMux n =>
    simp only [readReg] at h
    split at h <;> cases h
    exact .inl rfl
  | _ => cases h <;> simp

/-- A readable register answers. -/
theorem readReg_answers {r : Reg} {s : State} (h : readable s.params r = true) :
    ∃ x, readReg r s = .next x := by
  cases r <;> simp_all [readable, readReg]

/-- A write that answers changes registers, IN_HOLD and the draw counter only. -/
theorem writeReg_next {r : Reg} {v : Word} {s t : State} (h : writeReg r v s = .next t) :
    t = { s with
      out := t.out, enable := t.enable, pinConfig := t.pinConfig, funcSel := t.funcSel, ioMux := t.ioMux,
      inHold := t.inHold, draws := t.draws } := by
  cases r with
  | ioMux n =>
    simp only [writeReg] at h
    split at h <;> cases h
    rfl
  | _ => cases h <;> rfl

/-- A writable register takes the write. -/
theorem writeReg_answers {r : Reg} {v : Word} {s : State} (h : writable s.params r = true) :
    ∃ t, writeReg r v s = .next t := by
  cases r <;> simp_all [writable, writeReg]

/-! Each kind of write, as an equation. -/

@[simp] theorem writeReg_outSet (b : Bank) (v : Word) (s : State) :
    writeReg (.outSet b) v s = .next { s with out := bankSet s.out b (bankGet s.out b ||| v) } := rfl

@[simp] theorem writeReg_outClear (b : Bank) (v : Word) (s : State) :
    writeReg (.outClear b) v s = .next { s with out := bankSet s.out b (bankGet s.out b &&& ~~~v) } := rfl

@[simp] theorem writeReg_enableSet (b : Bank) (v : Word) (s : State) :
    writeReg (.enableSet b) v s = .next { s with enable := bankSet s.enable b (bankGet s.enable b ||| v) } := rfl

@[simp] theorem writeReg_enableClear (b : Bank) (v : Word) (s : State) :
    writeReg (.enableClear b) v s = .next { s with enable := bankSet s.enable b (bankGet s.enable b &&& ~~~v) } :=
  rfl

@[simp] theorem writeReg_pinConfig (n : Pin) (v : Word) (s : State) :
    writeReg (.pinConfig n) v s = .next { s with pinConfig := putPin s.pinConfig n v } := rfl

@[simp] theorem writeReg_funcSel (n : Pin) (v : Word) (s : State) :
    writeReg (.funcSel n) v s = .next { s with funcSel := putPin s.funcSel n v } := rfl

theorem writeReg_ioMux {n : Pin} {s : State} (h : isMapped s.params n = true) (v : Word) :
    writeReg (.ioMux n) v s = .next (writeIoMux n v s) := by
  simp [writeReg, h]

@[simp] theorem readReg_pinConfig (n : Pin) (s : State) :
    readReg (.pinConfig n) s = .next (s.pinConfig.get n, s) := rfl

@[simp] theorem readReg_input (b : Bank) (s : State) :
    readReg (.input b) s = .next (inputWord s b, drawn s) := rfl

@[simp] theorem readReg_out (b : Bank) (s : State) :
    readReg (.out b) s = .next (readStored s.out b s, drawn s) := rfl

theorem readReg_ioMux {n : Pin} {s : State} (h : isMapped s.params n = true) :
    readReg (.ioMux n) s = .next (s.ioMux.get n, s) := by
  simp [readReg, h]

/-! Bits. -/

@[simp] theorem inputWord_getElem (s : State) (b : Bank) (i : BitIndex) :
    (inputWord s b)[i.val] = inputBitAt s b i := by
  simp [inputWord]

theorem inputWord_getLsbD (s : State) (b : Bank) (i : BitIndex) :
    (inputWord s b).getLsbD i.val = inputBitAt s b i := by
  simp

@[simp] theorem bitMask_getLsbD (k : BitIndex) (i : Nat) :
    (bitMask k).getLsbD i = decide (k.val = i) := by
  have := k.isLt
  by_cases h : k.val = i
  · subst h; simp [bitMask, this]
  · rw [bitMask, BitVec.getLsbD_shiftLeft, BitVec.getLsbD_one]
    by_cases hi : i < k.val
    · simp [hi, h]
    · simp [hi, h]; omega

/-- A single-bit edit sets that bit to the flag and keeps the others (R108). -/
theorem editBit_getLsbD (w : Word) (k i : BitIndex) (en : Bool) :
    (editBit w k en).getLsbD i.val = if k = i then en else w.getLsbD i.val := by
  have hi := i.isLt
  by_cases h : k = i
  · subst h
    cases en <;> simp [editBit]
  · have hv : k.val ≠ i.val := fun e => h (Fin.ext e)
    cases en <;>
      simp only [editBit, BitVec.getLsbD_or, BitVec.getLsbD_and, BitVec.getLsbD_not, bitMask_getLsbD, hv, h, hi,
        decide_true, decide_false, if_false, if_true, Bool.or_false, Bool.not_false, Bool.and_true, Bool.false_eq_true]

/-- The bits of a high-bank register as read: the stored bits for pins, any value above (R33). -/
theorem withReserved_getLsbD (v any : Word) (i : BitIndex) :
    (withReserved v any).getLsbD i.val = if i.val < 8 then v.getLsbD i.val else any.getLsbD i.val := by
  have hm : ∀ j : Fin 32, highPinBits.getLsbD j.val = decide (j.val < 8) := by decide
  have hi := i.isLt
  by_cases h : i.val < 8 <;>
    simp only [withReserved, BitVec.getLsbD_or, BitVec.getLsbD_and, BitVec.getLsbD_not, hm, h, hi, decide_true,
      decide_false, if_true, if_false, Bool.and_true, Bool.and_false, Bool.not_true, Bool.not_false, Bool.or_false,
      Bool.false_or]

/-! The decoder (R87, R90) and the snapshots (R120, R121). -/

/-- Bit `bit` of bank `bank` stands for the pin that resolves to them. -/
@[simp] theorem pinAt_resolve (n : Pin) : pinAt (bankOf n) (bitOf n) = some n := by
  revert n; decide

theorem bankOf_low {n : Pin} (h : n.val < 32) : bankOf n = .lo := by simp [bankOf, boundary, h]

theorem bankOf_high {n : Pin} (h : ¬ n.val < 32) : bankOf n = .hi := by simp [bankOf, boundary, h]

theorem bitOf_low {n : Pin} (h : n.val < 32) : (bitOf n).val = n.val := by simp [bitOf, boundary, h]

theorem bitOf_high {n : Pin} (h : ¬ n.val < 32) : (bitOf n).val = n.val - 32 := by simp [bitOf, boundary, h]

/-- A high-bank pin's bit is one of the bits that stand for pins (R88). -/
theorem bitOf_lt_eight {n : Pin} (h : bankOf n = .hi) : (bitOf n).val < 8 := by
  revert n; decide

/-- Two pins with the same bank and bit are one pin. -/
theorem resolve_injective {m n : Pin} (hb : bankOf m = bankOf n) (hk : bitOf m = bitOf n) : m = n := by
  revert m n; decide

/-- Bit n of a snapshot is the pin's bit of its bank's register. -/
theorem concat64_getLsbD (hi lo : Word) (n : Pin) :
    (concat64 hi lo).getLsbD n.val = (if n.val < 32 then lo else hi).getLsbD (bitOf n).val := by
  unfold concat64
  rw [BitVec.getLsbD_append]
  by_cases h : n.val < 32
  · simp [h, bitOf_low h]
  · simp [h, bitOf_high h]

end Sys2Proof.Machine
end

