-- ==== Sys2Proof/Laws/Operations.lean ====
section
/-! SUPPORT. What a micro-step, an operation's remaining micro-steps and a whole operation can do (20_memory.md
R55, R56). -/

namespace Sys2Proof.Machine

/-- A bind that answers went on from an answer. -/
theorem andThen_next {α β : Type} {o : Host.Outcome α Fault Refusal} {f : α → Host.Outcome β Fault Refusal}
    {y : β} (h : andThen o f = .next y) : ∃ x, o = .next x ∧ f x = .next y := by
  cases o with
  | next x => exact ⟨x, rfl, h⟩
  | fault e => cases h
  | refused e => cases h

@[simp] theorem andThen_of_next {α β : Type} (x : α) (f : α → Host.Outcome β Fault Refusal) :
    andThen (.next x) f = f x := rfl

/-- Everything but registers, IN_HOLD, LP_LOG and the draw counter is as before, and LP_LOG only grew. -/
def KeepsRecords (s t : State) : Prop :=
  t = { s with
    out := t.out, enable := t.enable, pinConfig := t.pinConfig, funcSel := t.funcSel, ioMux := t.ioMux,
    inHold := t.inHold, lpLog := t.lpLog, draws := t.draws } ∧ ∃ es, t.lpLog = s.lpLog ++ es

theorem KeepsRecords.refl (s : State) : KeepsRecords s s := ⟨rfl, [], by simp⟩

theorem KeepsRecords.trans {s t u : State} (h : KeepsRecords s t) (h' : KeepsRecords t u) : KeepsRecords s u := by
  obtain ⟨e, es, he⟩ := h
  obtain ⟨e', es', he'⟩ := h'
  refine ⟨?_, es ++ es', by rw [he', he, List.append_assoc]⟩
  rw [e] at e'
  exact e'

theorem KeepsRecords.params {s t : State} (h : KeepsRecords s t) : t.params = s.params := by rw [h.1]
theorem KeepsRecords.fault {s t : State} (h : KeepsRecords s t) : t.fault = s.fault := by rw [h.1]
theorem KeepsRecords.refused {s t : State} (h : KeepsRecords s t) : t.refused = s.refused := by rw [h.1]
theorem KeepsRecords.owner {s t : State} (h : KeepsRecords s t) : t.owner = s.owner := by rw [h.1]
theorem KeepsRecords.contexts {s t : State} (h : KeepsRecords s t) : t.contexts = s.contexts := by rw [h.1]
theorem KeepsRecords.mover {s t : State} (h : KeepsRecords s t) : t.mover = s.mover := by rw [h.1]
theorem KeepsRecords.schedule {s t : State} (h : KeepsRecords s t) : t.schedule = s.schedule := by rw [h.1]
theorem KeepsRecords.callerOf {s t : State} (h : KeepsRecords s t) (a : Agent) :
    callerOf t a = callerOf s a := callerOf_congr h.owner h.contexts a

/-- One micro-step keeps every record but LP_LOG. -/
theorem perform_keepsRecords {m : MicroStep} {got got' : List Word} {s t : State}
    (h : perform m got s = .next (got', t)) : KeepsRecords s t := by
  cases m with
  | read r =>
    obtain ⟨⟨w, u⟩, hr, hx⟩ := andThen_next h
    injection hx with hx; injection hx with _ hx; subst hx
    rcases readReg_next hr with rfl | rfl
    · exact .refl _
    · exact ⟨rfl, [], by simp⟩
  | write r v =>
    obtain ⟨u, hw, hx⟩ := andThen_next h
    injection hx with hx; injection hx with _ hx; subst hx
    have e := writeReg_next hw
    have hl : u.lpLog = s.lpLog := by rw [e]
    exact ⟨by rw [hl]; exact e, [], by simp [hl]⟩
  | writeBack r k en =>
    obtain ⟨u, hw, hx⟩ := andThen_next h
    injection hx with hx; injection hx with _ hx; subst hx
    have e := writeReg_next hw
    have hl : u.lpLog = s.lpLog := by rw [e]
    exact ⟨by rw [hl]; exact e, [], by simp [hl]⟩
  | call q n en =>
    injection h with h; injection h with _ h; subst h
    exact ⟨rfl, [_], rfl⟩

/-- The state with other callers and another schedule. -/
def withCallers (o : Caller) (cs : List Caller) (sched : List Turn) (s : State) : State :=
  { s with owner := o, contexts := cs, schedule := sched }

/-- A micro-step neither reads nor writes the callers and the schedule. -/
theorem perform_withCallers (m : MicroStep) (got : List Word) (s : State) (o : Caller) (cs : List Caller)
    (sched : List Turn) :
    perform m got (withCallers o cs sched s) =
      andThen (perform m got s) fun x => .next (x.1, withCallers o cs sched x.2) := by
  have ioMux : ∀ (n : Pin) (q : Prop), (isMapped s.params n = true → q) → (isMapped s.params n = false → q) → q := by
    intro n q h h'
    cases hm : isMapped s.params n
    · exact h' hm
    · exact h hm
  cases m with
  | read r =>
    cases r <;> simp only [perform, readReg]
    case out b => cases b <;> rfl
    case enable b => cases b <;> rfl
    case ioMux n => exact ioMux n _ (fun h => by simp [withCallers, h]) (fun h => by simp [withCallers, h]; rfl)
    all_goals rfl
  | write r v =>
    cases r <;> simp only [perform, writeReg]
    case ioMux n => exact ioMux n _ (fun h => by simp [withCallers, h]; rfl) (fun h => by simp [withCallers, h]; rfl)
    all_goals rfl
  | writeBack r k en =>
    cases r <;> simp only [perform, writeReg]
    case ioMux n => exact ioMux n _ (fun h => by simp [withCallers, h]; rfl) (fun h => by simp [withCallers, h]; rfl)
    all_goals rfl
  | call q n en => rfl

/-- The registers a micro-step uses exist and allow the access. -/
def stepLegal (p : Params) : MicroStep → Bool
  | .read r => readable p r
  | .write r _ => writable p r
  | .writeBack r _ _ => writable p r
  | .call _ _ _ => true

/-- A legal micro-step answers, and returns a value exactly where it is a read or a call. -/
theorem perform_answers {m : MicroStep} {s : State} (h : stepLegal s.params m = true) (got : List Word) :
    ∃ got' t, perform m got s = .next (got', t) ∧
      got'.length = got.length + if m.returns then 1 else 0 := by
  cases m with
  | read r =>
    obtain ⟨x, hx⟩ := readReg_answers (s := s) h
    exact ⟨got ++ [x.1], x.2, by simp [perform, hx], by simp [MicroStep.returns]⟩
  | write r v =>
    obtain ⟨t, ht⟩ := writeReg_answers (v := v) (s := s) h
    exact ⟨got, t, by simp [perform, ht], by simp [MicroStep.returns]⟩
  | writeBack r k en =>
    obtain ⟨t, ht⟩ := writeReg_answers (v := editBit (got.getLastD 0) k en) (s := s) h
    exact ⟨got, t, by simp only [perform, ht, andThen_of_next], by simp [MicroStep.returns]⟩
  | call q n en => exact ⟨_, _, rfl, by simp [MicroStep.returns]⟩

/-- What is left of an operation, all of it legal, runs to its completion by the moving agent. -/
theorem runSteps_answers {f : Finish} {ms : List MicroStep} {s : State}
    (h : ms.all (stepLegal s.params) = true) (got : List Word) :
    ∃ u got', KeepsRecords s u ∧ runSteps f ms got s = .next (complete (finishResult f got') u) := by
  induction ms generalizing s got with
  | nil => exact ⟨s, got, .refl s, rfl⟩
  | cons m ms ih =>
    simp only [List.all_cons, Bool.and_eq_true] at h
    obtain ⟨got', t, ht, -⟩ := perform_answers h.1 got
    have hk := perform_keepsRecords ht
    obtain ⟨u, g, hu, he⟩ := ih (s := t) (by rw [hk.params]; exact h.2) got'
    exact ⟨u, g, hk.trans hu, by simp [runSteps, ht, he]⟩

/-- Whatever is left of an operation, where it answers it has kept the records and completed. -/
theorem runSteps_next {f : Finish} {ms : List MicroStep} {got : List Word} {s t : State}
    (h : runSteps f ms got s = .next t) :
    ∃ u got', KeepsRecords s u ∧ t = complete (finishResult f got') u := by
  induction ms generalizing s got with
  | nil => injection h with h; exact ⟨s, got, .refl s, h.symm⟩
  | cons m ms ih =>
    obtain ⟨⟨g, u⟩, hm, hr⟩ := andThen_next h
    obtain ⟨u', g', hk, he⟩ := ih hr
    exact ⟨u', g', (perform_keepsRecords hm).trans hk, he⟩

/-! Plans. -/

/-- The range check and the bonded check, passed (R85, R86). -/
theorem checkPin_ok {p : Params} {n : Pin} (h : p.bonded.get n = true) : checkPin p n.val = .ok n := by
  have := n.isLt
  simp [checkPin, h]

/-- What passing the checks R85 and R86 says. -/
theorem checkPin_eq_ok {p : Params} {pin : Nat} {n : Pin} (h : checkPin p pin = .ok n) :
    n.val = pin ∧ p.bonded.get n = true := by
  unfold checkPin at h
  split at h
  · split at h
    · rename_i hb
      injection h with h; subst h; exact ⟨rfl, hb⟩
    · cases h
  · cases h

/-- The checks of an IO_MUX-touching operation, passed (R85, R86, R92). -/
theorem checkMuxPin_ok {p : Params} {n : Pin} (h : p.bonded.get n = true) (hm : isMapped p n = true) :
    checkMuxPin p n.val = .ok n := by
  simp [checkMuxPin, checkPin_ok h, hm]

/-- What failing the checks R85 and R86 says. -/
theorem checkPin_eq_error {p : Params} {pin : Nat} {e : FaultReason} (h : checkPin p pin = .error e) :
    (e = .pinOutOfRange pin ∧ nMax ≤ pin) ∨
      ∃ n : Pin, n.val = pin ∧ e = .pinNotBonded pin ∧ p.bonded.get n = false := by
  unfold checkPin at h
  split at h
  · rename_i hp
    split at h <;> cases h
    exact .inr ⟨⟨pin, hp⟩, rfl, rfl, by simp_all⟩
  · cases h; exact .inl ⟨rfl, by omega⟩

/-- What failing the checks R85, R86 and R92 says. -/
theorem checkMuxPin_eq_error {p : Params} {pin : Nat} {e : FaultReason} (h : checkMuxPin p pin = .error e) :
    checkPin p pin = .error e ∨
      ∃ n : Pin, checkPin p pin = .ok n ∧ e = .ioMuxUnmapped pin ∧ isMapped p n = false := by
  unfold checkMuxPin at h
  split at h
  · rename_i e' he; cases h; exact .inl he
  · rename_i n hn
    split at h <;> cases h
    exact .inr ⟨n, hn, rfl, by simp_all⟩

/-- What passing the checks R85, R86 and R92 says. -/
theorem checkMuxPin_eq_ok {p : Params} {pin : Nat} {n : Pin} (h : checkMuxPin p pin = .ok n) :
    n.val = pin ∧ p.bonded.get n = true ∧ isMapped p n = true := by
  unfold checkMuxPin at h
  split at h
  · cases h
  · rename_i m hc
    split at h
    · rename_i hm
      injection h with h; subst h
      exact ⟨(checkPin_eq_ok hc).1, (checkPin_eq_ok hc).2, hm⟩
    · cases h

/-- `exec` runs the operation's plan whole. -/
theorem exec_eq_operate (i : Instr) (s : State) : exec i s = operate (planOf s.params i) s := by
  cases i <;> rfl

/-- Every register of a plan exists and allows its access, and it takes 1 to 7 micro-steps. -/
def PlanLegal (p : Params) (plan : Plan) : Prop :=
  plan.steps.all (stepLegal p) = true ∧ plan.steps ≠ [] ∧ plan.steps.length ≤ 7

theorem writable_enablePort (p : Params) (b : Bank) (en : Bool) : writable p (enablePort b en) = true := by
  cases en <;> rfl

theorem writable_levelPort (p : Params) (b : Bank) (level : Bool) : writable p (levelPort b level) = true := by
  cases level <;> rfl

theorem modifyBit_legal {p : Params} {r : Reg} (hr : readable p r = true) (hw : writable p r = true)
    (k : BitIndex) (en : Bool) : PlanLegal p (modifyBit r k en) :=
  ⟨by simp [modifyBit, stepLegal, hr, hw], by simp [modifyBit], by simp [modifyBit]⟩

theorem planReset_legal {p : Params} {pin : Nat} {plan : Plan} (h : planReset p pin = .ok plan) :
    PlanLegal p plan := by
  unfold planReset at h
  split at h
  · cases h
  · rename_i n hc
    have hm := (checkMuxPin_eq_ok hc).2.2
    injection h with h; subst h
    have hl := writable_levelPort p (bankOf n) false
    cases hp : p.lpCapable.get n <;>
      simp [PlanLegal, releaseSteps, defaultSteps, setLevelSteps, stepLegal, hl] <;> simp [writable, hm]

theorem planPull_legal {p : Params} {prim : LpPrim} {k : BitIndex} {pin : Nat} {en : Bool} {plan : Plan}
    (h : planPull p prim k pin en = .ok plan) : PlanLegal p plan := by
  unfold planPull at h
  split at h
  · cases h
  · rename_i n hc
    have hm := (checkMuxPin_eq_ok hc).2.2
    split at h <;> injection h with h <;> subst h
    · exact ⟨rfl, by simp, by simp⟩
    · exact modifyBit_legal (r := .ioMux n) hm hm k en

theorem planSetInputEnable_legal {p : Params} {pin : Nat} {en : Bool} {plan : Plan}
    (h : planSetInputEnable p pin en = .ok plan) : PlanLegal p plan := by
  unfold planSetInputEnable at h
  split at h
  · cases h
  · rename_i n hc
    have hm := (checkMuxPin_eq_ok hc).2.2
    injection h with h; subst h
    exact modifyBit_legal (r := .ioMux n) hm hm _ en

theorem planSetOpenDrain_legal {p : Params} {pin : Nat} {en : Bool} {plan : Plan}
    (h : planSetOpenDrain p pin en = .ok plan) : PlanLegal p plan := by
  unfold planSetOpenDrain at h
  split at h
  · cases h
  · injection h with h; subst h
    exact modifyBit_legal rfl rfl _ en

theorem planSetOutputEnable_legal {p : Params} {pin : Nat} {en : Bool} {plan : Plan}
    (h : planSetOutputEnable p pin en = .ok plan) : PlanLegal p plan := by
  unfold planSetOutputEnable at h
  split at h
  · cases h
  · injection h with h; subst h
    exact ⟨by simp [stepLegal, writable_enablePort], by simp, by simp⟩

theorem planSetLevel_legal {p : Params} {pin : Nat} {level : Bool} {plan : Plan}
    (h : planSetLevel p pin level = .ok plan) : PlanLegal p plan := by
  unfold planSetLevel at h
  split at h
  · cases h
  · injection h with h; subst h
    exact ⟨by simp [setLevelSteps, stepLegal, writable_levelPort], by simp [setLevelSteps], by simp [setLevelSteps]⟩

theorem planGetLevel_legal {p : Params} {pin : Nat} {plan : Plan}
    (h : planGetLevel p pin = .ok plan) : PlanLegal p plan := by
  unfold planGetLevel at h
  split at h
  · cases h
  · injection h with h; subst h
    exact ⟨rfl, by simp, by simp⟩

/-- An operation that passed its checks uses only registers that exist and allow the access, and takes 1 to 7
micro-steps. -/
theorem planOf_legal {p : Params} {i : Instr} {plan : Plan} (h : planOf p i = .ok plan) : PlanLegal p plan := by
  cases i with
  | reset pin => exact planReset_legal h
  | setPullup pin en => exact planPull_legal h
  | setPulldown pin en => exact planPull_legal h
  | setInputEnable pin en => exact planSetInputEnable_legal h
  | setOutputEnable pin en => exact planSetOutputEnable_legal h
  | setOpenDrain pin en => exact planSetOpenDrain_legal h
  | setLevel pin level => exact planSetLevel_legal h
  | getLevel pin => exact planGetLevel_legal h
  | getAllInputs => cases h; exact ⟨rfl, by simp, by simp⟩
  | getAllOutputs => cases h; exact ⟨rfl, by simp, by simp⟩

end Sys2Proof.Machine
end

