-- ==== Sys2Proof/Laws/Turns.lean ====
section
/-! SUPPORT. What a turn and a step can do (20_memory.md R56, R61, R65, R69). -/

namespace Sys2Proof.Machine

/-- The first turn of an order whose agent may move is in the order, and its agent may move. -/
theorem firstTurn_some {s : State} {ts rest : List Turn} {t : Turn} (h : firstTurn s ts = some (t, rest)) :
    enabled s t.agent = true ∧ t ∈ ts := by
  induction ts with
  | nil => cases h
  | cons x xs ih =>
    unfold firstTurn at h
    split at h
    · rename_i hx
      injection h with h; injection h with h1 h2; subst h1
      exact ⟨hx, by simp⟩
    · exact ⟨(ih h).1, List.mem_cons_of_mem _ (ih h).2⟩

theorem chooseAgent_mem (k : Nat) (a : Agent) (as : List Agent) : chooseAgent k a as ∈ a :: as := by
  have hlt : k % (as.length + 1) < (a :: as).length := by
    simpa using Nat.mod_lt k (Nat.succ_pos as.length)
  unfold chooseAgent
  rw [List.getD_eq_getElem _ _ hlt]
  exact List.getElem_mem hlt

theorem mem_enabledAgents {s : State} {a : Agent} : a ∈ enabledAgents s ↔ enabled s a = true := by
  simp only [enabledAgents, List.mem_filter, mem_agents, enabled, Bool.and_eq_true]
  tauto

/-- The next turn is one of an agent that may move, and choosing it changes the schedule, the mover and the
draw counter only. -/
theorem nextTurn_some {s s' : State} {t : Turn} (h : nextTurn s = some (t, s')) :
    enabled s t.agent = true ∧
      s' = { s with schedule := s'.schedule, mover := t.agent, draws := s'.draws } := by
  unfold nextTurn at h
  split at h
  · rename_i t' ts hf
    cases h
    exact ⟨(firstTurn_some hf).1, rfl⟩
  · split at h
    · cases h
    · rename_i a ha
      cases h
      exact ⟨mem_enabledAgents.1 (by simp [ha, Turn.agent]), rfl⟩
    · rename_i a b others ha
      cases h
      exact ⟨mem_enabledAgents.1 (by rw [ha]; exact chooseAgent_mem _ _ _), rfl⟩

/-- There is no next turn exactly where no agent may move. -/
theorem nextTurn_none {s : State} : nextTurn s = none ↔ enabledAgents s = [] := by
  unfold nextTurn
  split
  · rename_i t ts hf
    have := mem_enabledAgents.2 (firstTurn_some hf).1
    constructor
    · intro h; cases h
    · intro h; simp [h] at this
  · split <;> rename_i h <;> simp [h]

/-- The schedule's first turn is the next one, where its agent may move. -/
theorem nextTurn_scheduled {s : State} {t : Turn} {ts : List Turn} (h : s.schedule = t :: ts)
    (he : enabled s t.agent = true) : nextTurn s = some (t, { s with schedule := ts, mover := t.agent }) := by
  simp [nextTurn, h, firstTurn, he]

/-- A step of the turn the schedule names. -/
theorem step_scheduled {s : State} {t : Turn} {ts : List Turn} (hw : s.params.wellFormed = true)
    (h : s.schedule = t :: ts) (he : enabled s t.agent = true) :
    step s = takeTurn t { s with schedule := ts, mover := t.agent } := by
  simp [step, hw, nextTurn_scheduled h he]

/-- One more step of a run. -/
theorem run_succ {s t : State} (h : step s = .next t) (k : Nat) :
    Sys2Proof.core.run (k + 1) s = Sys2Proof.core.run k t := by
  have h' : Sys2Proof.core.step s = .next t := h
  simp only [Host.Core.run, h']

theorem run_zero (s : State) : Sys2Proof.core.run 0 s = .next s := rfl

/-- What one micro-step of an operation does, where it answers: it keeps the records, and the operation is
complete or has that step fewer to take. -/
theorem advance_next {f : InFlight} {s t : State} (h : advance f s = .next t) :
    (f.todo = [] ∧ t = complete (finishResult f.finish f.got) s) ∨
    ∃ m ms got u, f.todo = m :: ms ∧ perform m f.got s = .next (got, u) ∧ KeepsRecords s u ∧
      ((ms = [] ∧ t = complete (finishResult f.finish got) u) ∨
        (ms ≠ [] ∧ t = setInFlight (some ⟨ms, f.finish, got⟩) u)) := by
  unfold advance at h
  split at h
  · rename_i ht
    cases h
    exact .inl ⟨ht, rfl⟩
  · rename_i m ms ht
    obtain ⟨⟨got, u⟩, hp, hx⟩ := andThen_next h
    refine .inr ⟨m, ms, got, u, ht, hp, perform_keepsRecords hp, ?_⟩
    split at hx
    · cases hx; exact .inl ⟨rfl, rfl⟩
    · cases hx; exact .inr ⟨by simp, rfl⟩

/-- What a turn does to the moving agent, where it answers. -/
inductive TurnEffect (s t : State) : Prop where
  /-- The agent had no command. -/
  | idle (h : t = s)
  /-- Its command word was refused (R141). -/
  | refused (cw : CmdWord) (e : CommandRefusal) (hn : (callerOf s s.mover).inFlight = none)
      (hf : fetch s = some cw) (hd : decode cw = .error e) (h : t = refuseCommand e s)
  /-- A check of its operation failed (R137). -/
  | faulted (cw : CmdWord) (i : Instr) (e : FaultReason) (hn : (callerOf s s.mover).inFlight = none)
      (hf : fetch s = some cw) (hd : decode cw = .ok i) (hp : planOf s.params i = .error e)
      (h : t = raiseFault e s)
  /-- Its operation completed. -/
  | completed (u : State) (r : Result) (hk : KeepsRecords s u) (h : t = complete r u)
  /-- It took a micro-step of the operation it was inside of, and is inside it still. -/
  | further (f : InFlight) (m : MicroStep) (ms : List MicroStep) (got : List Word) (u : State)
      (hi : (callerOf s s.mover).inFlight = some f) (ht : f.todo = m :: ms) (hms : ms ≠ [])
      (hp : perform m f.got s = .next (got, u)) (hk : KeepsRecords s u)
      (h : t = setInFlight (some ⟨ms, f.finish, got⟩) u)
  /-- It took the first micro-step of its next operation, and is inside it. -/
  | entered (cw : CmdWord) (i : Instr) (plan : Plan) (m : MicroStep) (ms : List MicroStep) (got : List Word)
      (u : State) (hn : (callerOf s s.mover).inFlight = none) (hf : fetch s = some cw) (hd : decode cw = .ok i)
      (hp : planOf s.params i = .ok plan) (ht : plan.steps = m :: ms) (hms : ms ≠ [])
      (hm : perform m [] s = .next (got, u)) (hk : KeepsRecords s u)
      (h : t = setInFlight (some ⟨ms, plan.finish, got⟩) u)

theorem operate_effect {s t : State} {cw : CmdWord} {i : Instr}
    (hn : (callerOf s s.mover).inFlight = none) (hf : fetch s = some cw) (hd : decode cw = .ok i)
    (h : exec i s = .next t) : TurnEffect s t := by
  rw [exec_eq_operate] at h
  unfold operate at h
  split at h
  · rename_i e hp
    cases h
    exact .faulted cw i e hn hf hd hp rfl
  · obtain ⟨u, g, hk, he⟩ := runSteps_next h
    exact .completed u _ hk he

theorem startOperation_effect {s t : State} {cw : CmdWord} {i : Instr}
    (hn : (callerOf s s.mover).inFlight = none) (hf : fetch s = some cw) (hd : decode cw = .ok i)
    (h : startOperation (planOf s.params i) s = .next t) : TurnEffect s t := by
  unfold startOperation at h
  split at h
  · rename_i e hp
    cases h
    exact .faulted cw i e hn hf hd hp rfl
  · rename_i p hp
    rcases advance_next h with ⟨_, he⟩ | ⟨m, ms, got, u, ht, hm, hk, ⟨_, he⟩ | ⟨hms, he⟩⟩
    · exact .completed s _ (.refl s) he
    · exact .completed u _ hk he
    · exact .entered cw i p m ms got u hn hf hd hp ht hms hm hk he

/-- Everything a turn can do, where it answers. -/
theorem takeTurn_effect {tn : Turn} {s t : State} (h : takeTurn tn s = .next t) : TurnEffect s t := by
  cases tn with
  | microStep a =>
    simp only [takeTurn, runMicroStep] at h
    split at h
    · rename_i f hi
      rcases advance_next h with ⟨_, he⟩ | ⟨m, ms, got, u, ht, hm, hk, ⟨_, he⟩ | ⟨hms, he⟩⟩
      · exact .completed s _ (.refl s) he
      · exact .completed u _ hk he
      · exact .further f m ms got u hi ht hms hm hk he
    · rename_i hn
      split at h
      · cases h; exact .idle rfl
      · rename_i cw hf
        split at h
        · rename_i e hd
          cases h
          exact .refused cw e hn hf hd rfl
        · rename_i i hd
          exact startOperation_effect hn hf hd h
  | operation a =>
    simp only [takeTurn, runOperation] at h
    split at h
    · obtain ⟨u, g, hk, he⟩ := runSteps_next h
      exact .completed u _ hk he
    · rename_i hn
      split at h
      · cases h; exact .idle rfl
      · rename_i cw hf
        split at h
        · rename_i e hd
          cases h
          exact .refused cw e hn hf hd rfl
        · rename_i i hd
          exact operate_effect hn hf hd h

/-- Everything a step can do, where it answers: a turn of an agent that may move, or nothing where the run has
ended. -/
theorem step_cases {s t : State} (h : step s = .next t) :
    s.params.wellFormed = true ∧
      ((∃ tn s', nextTurn s = some (tn, s') ∧ TurnEffect s' t) ∨
        (enabledAgents s = [] ∧ ended s = true ∧ t = s)) := by
  unfold step at h
  split at h
  · rename_i hw
    refine ⟨hw, ?_⟩
    split at h
    · rename_i tn s' hn
      exact .inl ⟨tn, s', hn, takeTurn_effect h⟩
    · rename_i hn
      refine .inr ⟨nextTurn_none.1 hn, ?_⟩
      unfold stopped at h
      split at h
      · rename_i he
        cases h
        exact ⟨he, rfl⟩
      · split at h <;> cases h
  · cases h

end Sys2Proof.Machine
end

