-- ==== Sys2Proof/Laws/PerInstr.lean ====
section
/-! SUPPORT. Statements made per instruction (LAWS.json): an encoded instruction matches its row of
spec/opcode_table.json. -/

namespace Sys2Proof.Laws.RowMatch

open Sys2Proof Sys2Proof.Machine

/-- The command word of a well-formed instruction has the fixed bits of its row of the opcode table (R74,
R75). -/
def Statement (i : Instr) : Prop := i.wellFormed = true → encode i &&& rowMask i = rowMatch i

theorem pin_masked (mask op : CmdWord) (h : ∀ n : Fin 64, BitVec.ofNat 16 n.val &&& mask = 0)
    (pin : Nat) (hp : pin < 64) : (op ||| BitVec.ofNat 16 pin) &&& mask = op &&& mask := by
  have e := h ⟨pin, hp⟩
  rw [BitVec.and_comm, BitVec.and_or_distrib_left, BitVec.and_comm mask (BitVec.ofNat 16 pin), e,
    BitVec.and_comm]
  exact BitVec.or_zero

theorem reset (pin : Nat) : Statement (.reset pin) := fun h =>
  (pin_masked 0xFFC0 _ (by decide) pin (by simpa [Instr.wellFormed] using h)).trans rfl

theorem setPullup (pin : Nat) (en : Bool) : Statement (.setPullup pin en) := fun h =>
  (pin_masked 0xFEC0 _ (by decide) pin (by simpa [Instr.wellFormed] using h)).trans (by cases en <;> rfl)

theorem setPulldown (pin : Nat) (en : Bool) : Statement (.setPulldown pin en) := fun h =>
  (pin_masked 0xFEC0 _ (by decide) pin (by simpa [Instr.wellFormed] using h)).trans (by cases en <;> rfl)

theorem setInputEnable (pin : Nat) (en : Bool) : Statement (.setInputEnable pin en) := fun h =>
  (pin_masked 0xFEC0 _ (by decide) pin (by simpa [Instr.wellFormed] using h)).trans (by cases en <;> rfl)

theorem setOutputEnable (pin : Nat) (en : Bool) : Statement (.setOutputEnable pin en) := fun h =>
  (pin_masked 0xFEC0 _ (by decide) pin (by simpa [Instr.wellFormed] using h)).trans (by cases en <;> rfl)

theorem setOpenDrain (pin : Nat) (en : Bool) : Statement (.setOpenDrain pin en) := fun h =>
  (pin_masked 0xFEC0 _ (by decide) pin (by simpa [Instr.wellFormed] using h)).trans (by cases en <;> rfl)

theorem setLevel (pin : Nat) (level : Bool) : Statement (.setLevel pin level) := fun h =>
  (pin_masked 0xFEC0 _ (by decide) pin (by simpa [Instr.wellFormed] using h)).trans (by cases level <;> rfl)

theorem getLevel (pin : Nat) : Statement (.getLevel pin) := fun h =>
  (pin_masked 0xFFC0 _ (by decide) pin (by simpa [Instr.wellFormed] using h)).trans rfl

theorem getAllInputs : Statement .getAllInputs := fun _ => rfl

theorem getAllOutputs : Statement .getAllOutputs := fun _ => rfl

end Sys2Proof.Laws.RowMatch
end

