-- ==== Sys2Proof/Tests/Slice0.lean ====
section
/-! SUPPORT. Tests. Every expected value is one of 95_test_vectors.md (EV, DV, CV and BV are its vectors) or
of the rule named; `test_witness_<Name>` shows a state and operands that meet the hypotheses of
`Obligations.<Name>`, at the boundary values of each clause. The draws are opaque, so a test fixes only what the
spec fixes. -/

namespace Sys2Proof.Tests

open Sys2Proof Sys2Proof.Machine

/-! WellFormed: each check refuses an ill-formed term. Pin 64 does not fit the PIN field (R71, R82). -/

theorem test_wf_refuses_reset : (Instr.reset 64).wellFormed = false := by decide
theorem test_wf_refuses_setPullup : (Instr.setPullup 64 true).wellFormed = false := by decide
theorem test_wf_refuses_setPulldown : (Instr.setPulldown 64 true).wellFormed = false := by decide
theorem test_wf_refuses_setInputEnable : (Instr.setInputEnable 64 true).wellFormed = false := by decide
theorem test_wf_refuses_setOutputEnable : (Instr.setOutputEnable 64 true).wellFormed = false := by decide
theorem test_wf_refuses_setOpenDrain : (Instr.setOpenDrain 64 true).wellFormed = false := by decide
theorem test_wf_refuses_setLevel : (Instr.setLevel 64 true).wellFormed = false := by decide
theorem test_wf_refuses_getLevel : (Instr.getLevel 64).wellFormed = false := by decide
theorem test_wf_admits_pin_63 : (Instr.getLevel 63).wellFormed = true := by decide

/-- TC1 is admitted (R9). -/
theorem test_wf_admits_tc1 : Config.tc1.wellFormed = true := by decide +kernel

/-- R9 item 1: PD_BIT on PU_BIT. -/
theorem test_wf_refuses_equal_bits :
    ({ Config.tc1 with pdBit := 8 } : Params).bitsDistinct = false ∧
    ({ Config.tc1 with pdBit := 8 } : Params).wellFormed = false := by decide

/-- R10: a range [hi:lo] with lo above hi. -/
theorem test_wf_refuses_reversed_range :
    ({ Config.tc1 with drvField := ⟨10, 11⟩ } : Params).rangesOrdered = false ∧
    ({ Config.tc1 with drvField := ⟨10, 11⟩ } : Params).wellFormed = false := by decide

/-- R9 item 1: IE_BIT inside DRV_FIELD. -/
theorem test_wf_refuses_bit_in_drive_field :
    ({ Config.tc1 with drvField := ⟨11, 9⟩ } : Params).fieldsDisjoint = false ∧
    ({ Config.tc1 with drvField := ⟨11, 9⟩ } : Params).wellFormed = false := by decide

/-- 92_eei_decisions.md D5: MCU_SEL_FIELD over DRV_FIELD. -/
theorem test_wf_refuses_overlapping_fields :
    ({ Config.tc1 with mcuSelField := ⟨14, 11⟩ } : Params).fieldsDisjoint = false ∧
    ({ Config.tc1 with mcuSelField := ⟨14, 11⟩ } : Params).wellFormed = false := by decide

/-- TC1 with an IO_MUX offset that is no multiple of 4. -/
def oddOffset : Params := { Config.tc1 with ioMuxOffset := putPin Config.tc1.ioMuxOffset 39 (some 0x12) }

/-- R9 item 2, offsets. -/
theorem test_wf_refuses_odd_offset : oddOffset.offsetsAligned = false ∧ oddOffset.wellFormed = false := by
  decide +kernel

/-- TC1 with the address of PIN_CONFIG(0) no multiple of 4. -/
def oddAddress : Params := { Config.tc1 with pinConfigAddr := putPin Config.tc1.pinConfigAddr 0 0x3FF44089 }

/-- R9 item 2, addresses. -/
theorem test_wf_refuses_odd_address : oddAddress.addrsAligned = false ∧ oddAddress.wellFormed = false := by
  decide +kernel

/-- TC1 with FUNC_SEL(n) at the address of PIN_CONFIG(n). -/
def sharedAddress : Params := { Config.tc1 with funcSelAddr := Config.tc1.pinConfigAddr }

/-- R9 item 3. -/
theorem test_wf_refuses_shared_address :
    sharedAddress.addrsDistinct = false ∧ sharedAddress.wellFormed = false := by decide +kernel

/-! Decode: one word for each constructor, written out from R70 and R74, and the refusals of section 3.1. -/

theorem test_decode_reset : decode 0b0000_000_0_00_011001 = .ok (.reset 25) := by decide
theorem test_decode_setPullup : decode 0b0001_000_1_00_000101 = .ok (.setPullup 5 true) := by decide
theorem test_decode_setPulldown : decode 0b0010_000_0_00_000101 = .ok (.setPulldown 5 false) := by decide
theorem test_decode_setInputEnable : decode 0b0011_000_1_00_000101 = .ok (.setInputEnable 5 true) := by decide
theorem test_decode_setOutputEnable : decode 0b0100_000_1_00_100000 = .ok (.setOutputEnable 32 true) := by decide
theorem test_decode_setOpenDrain : decode 0b0101_000_1_00_000101 = .ok (.setOpenDrain 5 true) := by decide
theorem test_decode_setLevel : decode 0b0110_000_0_00_011010 = .ok (.setLevel 26 false) := by decide
theorem test_decode_getLevel : decode 0b0111_000_0_00_100111 = .ok (.getLevel 39) := by decide
theorem test_decode_getAllInputs : decode 0b1000_000_0_00_000000 = .ok .getAllInputs := by decide
theorem test_decode_getAllOutputs : decode 0b1001_000_0_00_000000 = .ok .getAllOutputs := by decide

/-- EV3 to EV12: the reason of each refused word, and the first where there are several. -/
theorem test_decode_refusals :
    [0xA000, 0xF13F, 0x0219, 0x6159, 0x0119, 0x7127, 0x9001, 0x8100, 0x8140, 0x8101].map decode =
      [.error .reservedOp, .error .reservedOp, .error .reservedBits, .error .reservedBits, .error .reservedV,
        .error .reservedV, .error .reservedPin, .error .reservedV, .error .reservedBits, .error .reservedV] := by
  decide

theorem test_decodeTableWord : decodeTableWord 16 0x6128 = some (.setLevel 40 true) := by decide
theorem test_decodeTableWord_refuses : decodeTableWord 16 0xA000 = none := by decide

/-! The assembler (R81, R82). -/

theorem test_assemble_level : [7, -3, 0].map (fun v => assemble (.setLevel 31 v)) =
    [some 0x611F, some 0x611F, some 0x601F] := by decide
theorem test_assemble_rejects : assemble (.setPullup 5 2) = none ∧ assemble (.reset 64) = none ∧
    assemble (.reset 40) = some 0x0028 := by decide
theorem test_parse_line : parseLine "CTX1: set_level 31, -3 ; high".toList = some (.ctx 1, .setLevel 31 (-3)) := by
  decide
theorem test_parse_rejects : parseLine "toggle 5".toList = none ∧ parseLine "reset 0x5".toList = none := by decide

/-! Operations, at most two tests each. -/

/-- TC1 with TC1b's two pins not bonded out. -/
def tc1b : Params := { Config.tc1 with bonded := Vector.ofFn fun n => n.val != 5 && n.val != 24 }

/-- A machine on which OWNER is to run a list of commands. -/
def board (p : Params) (commands : List CmdWord) : State := State.launch p commands [] []

/-- The machine with a value in each bank of OUT and of ENABLE. -/
def withBanks (out enable : Banked Word) : State := { board Config.tc1 [] with out := out, enable := enable }

/-- The machine with a value in IO_MUX(n) and in PIN_CONFIG(n). -/
def withPin (n : Pin) (mux config : Word) : State :=
  { board Config.tc1 [] with
    ioMux := putPin (board Config.tc1 []).ioMux n mux
    pinConfig := putPin (board Config.tc1 []).pinConfig n config }

/-- What a predicate says of the next state. -/
def after (i : Instr) (s : State) (p : State → Bool) : Bool :=
  match exec i s with
  | .next t => p t
  | .fault _ => false
  | .refused _ => false

/-- CV16: the four registers and OUT's bit, ENABLE kept, no LP call. -/
theorem test_reset_digital_pin :
    after (.reset 5) { withPin 5 0x2B80 4 with out := ⟨0x02000020, 0⟩, enable := ⟨0x20, 0⟩ } (fun t =>
      t.pinConfig.get 5 == 0 && t.funcSel.get 5 == 0x100 && t.ioMux.get 5 == 0x2800 && t.out == ⟨0x02000000, 0⟩
        && t.enable == ⟨0x20, 0⟩ && t.lpLog == [] && t.owner.results == [.status 0]) = true := by decide

/-- CV19: the high bank, and the three LP calls in order. -/
theorem test_reset_lp_capable_pin :
    after (.reset 32) (withBanks ⟨0xFFFFFFFF, 0x81⟩ ⟨0, 0⟩) (fun t =>
      t.out == ⟨0xFFFFFFFF, 0x80⟩ && t.ioMux.get 32 == 0x2800
        && t.lpLog.map (fun e => (e.agent, e.prim, e.pin, e.en)) ==
          [(.owner, .detach, 32, none), (.owner, .pullup, 32, some true), (.owner, .pulldown, 32, some false)]) =
      true := by decide

/-- CV8: only bit 8 changes. -/
theorem test_setPullup_keeps_other_bits :
    after (.setPullup 5 false) (withPin 5 0xFFFFFFFF 0) (fun t =>
      t.ioMux.get 5 == 0xFFFFFEFF && t.lpLog == [] && t.owner.results == [.status 0]) = true := by decide

/-- CV10, CV11: one LP call, its status verbatim, IO_MUX untouched. -/
theorem test_setPullup_lp_capable_pin : ∃ t, exec (.setPullup 25 true) (withPin 25 0x2800 0) = .next t ∧
    t.ioMux.get 25 = 0x2800 ∧ t.lpLog = [⟨.owner, .pullup, 25, some true, Config.lpStatus 0⟩] ∧
    t.owner.results = [.status (Config.lpStatus 0)] := ⟨_, rfl, rfl, rfl, rfl⟩

/-- CV4: both pulls at once. -/
theorem test_setPulldown_with_pullup :
    after (.setPulldown 5 true) (withPin 5 0x2900 0) (fun t => t.ioMux.get 5 == 0x2980 && t.fault == none) = true := by
  decide

/-- DV7's check, on the other pull: an unmapped pin faults and makes no LP call. -/
theorem test_setPulldown_unmapped_pin :
    after (.setPulldown 24 true) (board Config.tc1 []) (fun t =>
      t.fault == some ⟨.ioMuxUnmapped 24, .owner, 0⟩ && t.lpLog == [] && t.owner.results == []) = true := by decide

/-- CV7. -/
theorem test_setInputEnable_clears :
    after (.setInputEnable 5 false) (withPin 5 0xFFFFFFFF 0) (fun t => t.ioMux.get 5 == 0xFFFFFDFF) = true := by decide

/-- CV13: never delegated. -/
theorem test_setInputEnable_lp_capable_pin :
    after (.setInputEnable 25 true) (withPin 25 0x2800 0) (fun t =>
      t.ioMux.get 25 == 0x2A00 && t.lpLog == []) = true := by decide

/-- CV15. -/
theorem test_setOpenDrain_clears :
    after (.setOpenDrain 5 false) (withPin 5 0 0xFFFFFFFF) (fun t => t.pinConfig.get 5 == 0xFFFFFFFB) = true := by decide

/-- DV10: no IO_MUX check. -/
theorem test_setOpenDrain_unmapped_pin :
    after (.setOpenDrain 24 true) (withPin 24 0 0) (fun t => t.pinConfig.get 24 == 4 && t.fault == none) = true := by
  decide

/-- BV2: pin 31 is the low bank's last. -/
theorem test_setOutputEnable_pin_31 :
    after (.setOutputEnable 31 true) (withBanks ⟨0, 0⟩ ⟨0, 0⟩) (fun t => t.enable == ⟨0x80000000, 0⟩) = true := by decide

/-- BV4: pin 32 is the high bank's first. -/
theorem test_setOutputEnable_pin_32 :
    after (.setOutputEnable 32 false) (withBanks ⟨0, 0⟩ ⟨0xFFFFFFFF, 0xFF⟩) (fun t =>
      t.enable == ⟨0xFFFFFFFF, 0xFE⟩) = true := by decide

/-- DV4 and BV8: pin 39, its output driver disabled. -/
theorem test_setLevel_pin_39 :
    after (.setLevel 39 true) (withBanks ⟨0, 0⟩ ⟨0, 0⟩) (fun t => t.out == ⟨0, 0x80⟩ && t.enable == ⟨0, 0⟩) = true := by
  decide

/-- DV14: a pin that is not bonded out. -/
theorem test_setLevel_unbonded_pin :
    after (.setLevel 5 true) (board tc1b []) (fun t =>
      t.fault == some ⟨.pinNotBonded 5, .owner, 0⟩ && t.out == ⟨0, 0⟩) = true := by decide

/-- The IN_HOLD vector of section 3.3: the held bit where IE is 0. -/
theorem test_getLevel_input_disabled : ∃ t,
    exec (.getLevel 5) { withPin 5 0x2800 0 with inHold := Vector.replicate nMax true } = .next t ∧
      t.owner.results = [.bit true] :=
  ⟨_, rfl, congrArg (fun b => [Result.bit b]) ((inputWord_getLsbD _ .lo 5).trans rfl)⟩

/-- BV9, BV10: the pad level where IE is 1. -/
theorem test_getLevel_input_enabled : ∃ t, exec (.getLevel 39) (withPin 39 0x2A00 0) = .next t ∧
    t.owner.results = [.bit ((Config.padLevel 0).getLsbD 39)] :=
  ⟨_, rfl, congrArg (fun b => [Result.bit b]) ((inputWord_getLsbD _ .hi 7).trans rfl)⟩

/-- BV12 with every input disabled and IN_HOLD all 1: the bits of the mapped pins 0, 27, 32 and 39 are 1. -/
theorem test_getAllInputs_input_disabled : ∃ t w,
    exec .getAllInputs { board Config.tc1 [] with inHold := Vector.replicate nMax true } = .next t ∧
      t.owner.results = [.word64 w] ∧ w.getLsbD 0 = true ∧ w.getLsbD 27 = true ∧ w.getLsbD 32 = true ∧
      w.getLsbD 39 = true := by
  refine ⟨_, _, rfl, rfl, ?_, ?_, ?_, ?_⟩
  · exact (concat64_getLsbD _ _ 0).trans ((inputWord_getLsbD _ _ _).trans rfl)
  · exact (concat64_getLsbD _ _ 27).trans ((inputWord_getLsbD _ _ _).trans rfl)
  · exact (concat64_getLsbD _ _ 32).trans ((inputWord_getLsbD _ _ _).trans rfl)
  · exact (concat64_getLsbD _ _ 39).trans ((inputWord_getLsbD _ _ _).trans rfl)

/-- BV14: bits 26, 32 and 33 of OUT[LO] = 0x06000000, OUT[HI] = 1. -/
theorem test_getAllOutputs_both_banks : ∃ t w,
    exec .getAllOutputs (withBanks ⟨0x06000000, 1⟩ ⟨0, 0⟩) = .next t ∧ t.owner.results = [.word64 w] ∧
      w.getLsbD 26 = true ∧ w.getLsbD 32 = true ∧ w.getLsbD 33 = false := by
  refine ⟨_, _, rfl, rfl, ?_, ?_, ?_⟩
  · exact concat64_getLsbD _ _ 26
  · exact (concat64_getLsbD _ _ 32).trans (withReserved_getLsbD _ _ 0)
  · exact (concat64_getLsbD _ _ 33).trans (withReserved_getLsbD _ _ 1)

/-- DV5, DV14, DV6: the codes of the three fault reasons in the observation. -/
theorem test_fault_codes :
    after (.setLevel 40 true) (board Config.tc1 []) (fun t => (observe t).faultCode == some 1) = true ∧
    after (.setLevel 5 true) (board tc1b []) (fun t => (observe t).faultCode == some 2) = true ∧
    after (.reset 24) (board Config.tc1 []) (fun t => (observe t).faultCode == some 3) = true := by decide

/-! Steps. -/

/-- A word placed for OWNER is what the next step runs. -/
theorem test_withFetchWord_runs : step (State.reset.withFetchWord 16 0x6127) =
    exec (.setLevel 39 true) (State.reset.withFetchWord 16 0x6127) := by
  have h : (State.reset.withFetchWord 16 0x6127).params.wellFormed = true := test_wf_admits_tc1
  rw [step, if_pos h]
  rfl

/-- Nothing is placed at reset, and the ended run stays as it is. -/
theorem test_reset_idles : step State.reset = .next State.reset := by
  have h : State.reset.params.wellFormed = true := test_wf_admits_tc1
  rw [step, if_pos h]
  rfl

/-! Witnesses. `bonded` and `mapped` are the two hypotheses most statements about a pin have. -/

/-- The pins are bonded out. -/
abbrev bonded (s : State) (ns : List Pin) : Prop := ∀ n ∈ ns, s.params.bonded.get n = true

/-- The pins have an IO_MUX register. -/
abbrev mapped (s : State) (ns : List Pin) : Prop := ∀ n ∈ ns, (s.params.ioMuxOffset.get n).isSome = true

/-- The pins are LP-capable, or are not. -/
abbrev lpCapable (s : State) (ns : List Pin) (c : Bool) : Prop := ∀ n ∈ ns, s.params.lpCapable.get n = c

/-- OWNER and CTX_1 are both to move. -/
def running : State :=
  State.launch Config.tc1 [0x6127, 0x9000] [[0x0019, 0x6128]] [.operation .owner, .microStep (.ctx 1)]

/-- OWNER stopped at a failing check, CTX_1 is to move. -/
def faulted : State :=
  raiseFault (.pinOutOfRange 40) (State.launch Config.tc1 [0x6128] [[0x6100]] [.operation (.ctx 1)])

/-- OWNER stopped at a refused command word, CTX_1 is to move. -/
def refusedOnce : State :=
  refuseCommand .reservedOp (State.launch Config.tc1 [0xA000] [[0x6100]] [.operation (.ctx 1)])

/-- OWNER stopped at a failing check, and nobody is to move. -/
def failedBoard : State := raiseFault (.pinOutOfRange 40) (board Config.tc1 [0x6128])

/-- OWNER stopped at a refused command word, and nobody is to move. -/
def refusedBoard : State := refuseCommand .reservedOp (board Config.tc1 [0xA000])

theorem test_witness_DecodeInvertsEncode :
    [Instr.reset 0, .setPullup 63 true, .setPulldown 0 false, .setInputEnable 63 false, .setOutputEnable 39 true,
      .setOpenDrain 40 true, .setLevel 63 true, .getLevel 63, .getAllInputs, .getAllOutputs].all
        Instr.wellFormed = true := by decide

theorem test_witness_EncodeInvertsDecode :
    decode 0x0000 = .ok (.reset 0) ∧ decode 0x613F = .ok (.setLevel 63 true) ∧ decode 0x9000 = .ok .getAllOutputs := by
  decide

theorem test_witness_AssemblerConvertsOperands :
    (15 < 16 ∧ 63 < 64) ∧ (1, AsmLine.setPullup 64 1) ∈ [(1, AsmLine.setPullup 64 1), (2, .setPulldown 64 1)] := by
  decide

theorem test_witness_ResolveSplitsAtBoundary :
    (31 : Pin).val < 32 ∧ 32 ≤ (32 : Pin).val ∧ 32 ≤ (39 : Pin).val := by decide

theorem test_witness_PinChecksFaultInOrder :
    (pinOf (.setLevel 40 true) = some 40 ∧ 40 ≤ 40) ∧
    (pinOf (.reset 24) = some 24 ∧ (board tc1b []).params.bonded.get 24 = false) ∧
    (pinOf (.getLevel 5) = some 5 ∧ (board tc1b []).params.bonded.get 5 = false) ∧
    (pinOf (.setInputEnable 31 true) = some 31 ∧ bonded (board Config.tc1 []) [24, 31] ∧
      touchesIoMux (.setInputEnable 31 true) = true ∧ (board Config.tc1 []).params.ioMuxOffset.get 31 = none) := by
  decide

theorem test_witness_OperationsReturnOneResult :
    agentExists running running.mover = true ∧
    (∀ pin, pinOf (.reset 39) = some pin → ∃ n : Pin, n.val = pin ∧ running.params.bonded.get n = true ∧
      (touchesIoMux (.reset 39) = true → (running.params.ioMuxOffset.get n).isSome = true)) ∧
    (∀ pin, pinOf .getAllInputs = some pin → ∃ n : Pin, n.val = pin ∧ running.params.bonded.get n = true ∧
      (touchesIoMux .getAllInputs = true → (running.params.ioMuxOffset.get n).isSome = true)) := by
  refine ⟨rfl, fun pin h => ?_, fun pin h => ?_⟩
  · injection h with h; exact ⟨39, h, rfl, fun _ => rfl⟩
  · cases h

theorem test_witness_CompletionAppendsResult :
    agentExists running running.mover = true ∧ Agent.ctx 1 ≠ running.mover := by decide

theorem test_witness_StorageReadsBack : mapped (board Config.tc1 []) [0, 39] := by decide

theorem test_witness_AbsentAccessesAreTurnedAway :
    ∀ n ∈ ([24, 28, 31] : List Pin), (board Config.tc1 []).params.ioMuxOffset.get n = none := by decide

theorem test_witness_RepeatedWriteIsIdempotent :
    (∃ t, writeReg (.ioMux 39) 0x2800 (board Config.tc1 []) = .next t) ∧
    (∃ t, writeReg (.outSet .hi) 0x80 (board Config.tc1 []) = .next t) := ⟨⟨_, rfl⟩, ⟨_, rfl⟩⟩

theorem test_witness_AddressesNameOneRegister :
    Config.tc1.wellFormed = true ∧ addrOf Config.tc1 (.out .lo) = some 0x3FF44004 ∧
      addrOf Config.tc1 (.ioMux 39) = some 0x3FF49010 := ⟨test_wf_admits_tc1, by decide, by decide⟩

theorem test_witness_ResetLeavesSafeState :
    bonded (board Config.tc1 []) [0, 1, 23, 27, 32, 39] ∧ mapped (board Config.tc1 []) [0, 1, 23, 27, 32, 39] := by decide

theorem test_witness_PullOnLpCapablePinIsDelegated :
    bonded (board Config.tc1 []) [0, 27, 32, 39] ∧ mapped (board Config.tc1 []) [0, 27, 32, 39] ∧
      lpCapable (board Config.tc1 []) [0, 27, 32, 39] true := by decide

theorem test_witness_PullOnDigitalPinWritesIoMux :
    bonded (board Config.tc1 []) [1, 23] ∧ mapped (board Config.tc1 []) [1, 23] ∧
      lpCapable (board Config.tc1 []) [1, 23] false := by decide

theorem test_witness_SetInputEnableWritesIoMux :
    bonded (board Config.tc1 []) [0, 1, 32, 39] ∧ mapped (board Config.tc1 []) [0, 1, 32, 39] := by decide

theorem test_witness_SetOpenDrainWritesPinConfig : bonded (board Config.tc1 []) [0, 24, 31, 32, 39] := by decide

theorem test_witness_ConfigurationKeepsOtherBits :
    bonded (board Config.tc1 []) [1, 31, 39] ∧ mapped (board Config.tc1 []) [1, 39] ∧
      lpCapable (board Config.tc1 []) [1] false := by decide

/-- Four agents about to run the four operations, SET_OPEN_DRAIN on an unmapped pin. -/
theorem test_witness_ReadModifyWriteKeepsOtherBits :
    ∀ x ∈ [(Agent.owner, (0x1101 : CmdWord), Instr.setPullup 1 true), (.ctx 1, 0x2001, .setPulldown 1 false),
        (.ctx 2, 0x3127, .setInputEnable 39 true), (.ctx 3, 0x511F, .setOpenDrain 31 true)],
      let s := { State.launch Config.tc1 [0x1101] [[0x2001], [0x3127], [0x511F]] [] with mover := x.1 }
      agentExists s s.mover = true ∧ bonded s [1, 31, 39] ∧ mapped s [1, 39] ∧ lpCapable s [1] false ∧
      (callerOf s s.mover).inFlight = none ∧ fetch s = some x.2.1 ∧ decode x.2.1 = .ok x.2.2 := by decide

/-- The state right after the read meets the premise on the states other agents may have made. -/
theorem test_witness_ReadModifyWriteKeepsOtherBits_between :
    let s := board Config.tc1 [0x1101]
    ∃ t, runMicroStep s = .next t ∧ t.mover = s.mover ∧ t.params = s.params ∧ t.ioMux.get 1 = s.ioMux.get 1 :=
  ⟨_, rfl, rfl, rfl, rfl⟩

theorem test_witness_PullsAreIndependent :
    (board Config.tc1 []).params.wellFormed = true ∧ bonded (board Config.tc1 []) [1, 23] ∧
      mapped (board Config.tc1 []) [1, 23] ∧ lpCapable (board Config.tc1 []) [1, 23] false :=
  ⟨test_wf_admits_tc1, by decide⟩

theorem test_witness_ResetOutputReadsBackZero :
    agentExists running running.mover = true ∧ bonded running [0, 23, 32, 39] ∧ mapped running [0, 23, 32, 39] := by
  decide

theorem test_witness_OnlyResetAndPullsHandOff :
    (∃ t, exec (.setInputEnable 39 true) running = .next t) ∧ handsOff (.setInputEnable 39 true) = false ∧
    (∃ t, exec (.reset 5) running = .next t) ∧
      (∀ n : Pin, pinOf (.reset 5) = some n.val → running.params.lpCapable.get n = false) :=
  ⟨⟨_, rfl⟩, rfl, ⟨_, rfl⟩, by decide⟩

theorem test_witness_SetOutputEnableWritesOneBit : bonded (board Config.tc1 []) [0, 31, 32, 39] := by decide

theorem test_witness_SetLevelWritesOneBit : bonded (board Config.tc1 []) [0, 31, 32, 39] := by decide

theorem test_witness_GetLevelReadsInputBit :
    bonded (board Config.tc1 []) [0, 31, 32, 39] ∧ mapped (board Config.tc1 []) [0, 39] ∧
      isMapped Config.tc1 31 = false := by decide

theorem test_witness_BanksAreIsolated :
    bonded (board Config.tc1 []) [31, 32] ∧ (31 : Pin).val < 32 ∧ 32 ≤ (32 : Pin).val := by decide

theorem test_witness_LevelOperationsAreNotConfiguration :
    isLevelOp (.setLevel 39 true) = true ∧ (∃ t, exec (.setLevel 39 true) running = .next t) ∧
    isLevelOp .getAllInputs = true ∧ (∃ t, exec .getAllInputs running = .next t) :=
  ⟨rfl, ⟨_, rfl⟩, rfl, ⟨_, rfl⟩⟩

theorem test_witness_SetLevelIgnoresOutputEnable : bonded (board Config.tc1 []) [0, 31, 32, 39] := by decide

theorem test_witness_SetLevelsCommute :
    bonded (board Config.tc1 []) [31, 32] ∧ (31 : Pin) ≠ 32 ∧ (32 : Pin) = 32 := by decide

theorem test_witness_DisabledInputIsStable :
    agentExists running running.mover = true ∧ bonded running [5] ∧ mapped running [5] ∧
    (running.ioMux.get 5).getLsbD running.params.ieBit.val = false ∧
    (touchesIoMux (.setOpenDrain 5 true) = false ∧ ∃ t, exec (.setOpenDrain 5 true) running = .next t) ∧
    (pinOf (.reset 4) ≠ some 5 ∧ ∃ t, exec (.reset 4) running = .next t) :=
  ⟨rfl, by decide, by decide, by decide, ⟨rfl, _, rfl⟩, by decide, _, rfl⟩

theorem test_witness_FailedCheckStopsTheAgent :
    agentExists running running.mover = true ∧
    planOf running.params (.setLevel 40 true) = .error (.pinOutOfRange 40) ∧
    planOf running.params (.reset 24) = .error (.ioMuxUnmapped 24) ∧
    planOf (board tc1b []).params (.getLevel 5) = .error (.pinNotBonded 5) ∧ Agent.ctx 1 ≠ running.mover ∧
    faulted.fault ≠ none ∧ ∃ t, step faulted = .next t :=
  ⟨rfl, rfl, rfl, rfl, by decide, by decide, _, (step_scheduled test_wf_admits_tc1 rfl rfl).trans rfl⟩

/-- FAULT is empty, and each cause and no cause holds. -/
theorem test_witness_FaultReasonsAsTabled :
    (board tc1b []).fault = none ∧ (pinOf (.setLevel 40 true) = some 40 ∧ 40 ≤ 40) ∧
    (pinOf (.reset 24) = some 24 ∧ tc1b.bonded.get 24 = false) ∧
    (pinOf (.reset 31) = some 31 ∧ tc1b.bonded.get 31 = true ∧ touchesIoMux (.reset 31) = true ∧
      tc1b.ioMuxOffset.get 31 = none) ∧ pinOf .getAllInputs = none := by decide

theorem test_witness_RefusedWordStopsTheAgent :
    (agentExists (board Config.tc1 [0xA000]) .owner = true ∧ (board Config.tc1 [0xA000]).owner.inFlight = none ∧
      fetch (board Config.tc1 [0xA000]) = some 0xA000 ∧ decode 0xA000 = .error .reservedOp) ∧
    refusedOnce.refused = true ∧ ∃ t, step refusedOnce = .next t :=
  ⟨by decide, rfl, _, (step_scheduled test_wf_admits_tc1 rfl rfl).trans rfl⟩

theorem test_witness_FaultRecordIsSticky :
    (refusedOnce.refused = true ∧ ∃ t, step refusedOnce = .next t) ∧
    (faulted.fault = some ⟨.pinOutOfRange 40, .owner, 0⟩ ∧ ∃ t, step faulted = .next t) ∧
    ∃ s t, step s = .next t ∧ s.fault = none ∧ t.fault = some ⟨.pinOutOfRange 40, .owner, 0⟩ :=
  ⟨⟨rfl, _, (step_scheduled test_wf_admits_tc1 rfl rfl).trans rfl⟩,
   ⟨rfl, _, (step_scheduled test_wf_admits_tc1 rfl rfl).trans rfl⟩,
   State.launch Config.tc1 [0x6128] [] [.operation .owner], _,
   (step_scheduled test_wf_admits_tc1 rfl rfl).trans rfl, rfl, rfl⟩

theorem test_witness_StepRunsDecodedOperation :
    (running.params.wellFormed = true ∧
      nextTurn running = some (.operation .owner, { running with schedule := [.microStep (.ctx 1)] }) ∧
      (callerOf running .owner).inFlight = none ∧
      (callerOf running .owner).commands[(callerOf running .owner).index]? = some 0x6127 ∧
      decode 0x6127 = .ok (.setLevel 39 true)) ∧
    0xFFFF < 2 ^ 16 ∧ 0x9000 < 2 ^ 16 ∧ decodeTableWord 16 0x9000 = some .getAllOutputs :=
  ⟨⟨test_wf_admits_tc1, rfl, rfl, rfl, by decide⟩, by decide⟩

theorem test_witness_NextTurnIsOfAnEnabledAgent :
    (∃ t s', nextTurn running = some (t, s')) ∧
    running.schedule = .operation .owner :: [.microStep (.ctx 1)] ∧ enabled running .owner = true ∧
    enabled running (.ctx 1) = true := ⟨⟨_, _, rfl⟩, rfl, by decide⟩

theorem test_witness_ParametersAreCheckedAndFixed :
    (board { Config.tc1 with pdBit := 8 } []).params.wellFormed = false ∧ ∃ t, step running = .next t :=
  ⟨by decide, _, (step_scheduled test_wf_admits_tc1 rfl rfl).trans rfl⟩

theorem test_witness_StepExtendsHistories :
    (∃ t, step running = .next t ∧ Agent.ctx 1 ≠ t.mover) :=
  ⟨_, (step_scheduled test_wf_admits_tc1 rfl rfl).trans rfl, by decide⟩

theorem test_witness_MicroStepsInOrder :
    bonded (board Config.tc1 []) [0, 1, 39] ∧ mapped (board Config.tc1 []) [0, 1, 39] ∧
      lpCapable (board Config.tc1 []) [0, 39] true ∧ lpCapable (board Config.tc1 []) [1] false := by decide

/-- Agents about to run 7 micro-steps (`reset 25`), 1, none and none (a check that fails, a refused word). -/
theorem test_witness_OperationIsItsMicroSteps :
    (∀ a ∈ [Agent.owner, .ctx 1, .ctx 2, .ctx 3],
      let s := State.launch Config.tc1 [0x0019] [[0x6100], [0x0018], [0xA000]] []
      enabled s a = true ∧ (callerOf s a).inFlight = none) ∧
    (State.launch Config.tc1 [0x0019] [[0x6100], [0x0018], [0xA000]] []).params.wellFormed = true :=
  ⟨by decide, test_wf_admits_tc1⟩

/-- P5's state. -/
def contended : State :=
  State.launch Config.tc1 [0x1105] [[0x3105]] [.microStep .owner, .microStep (.ctx 1), .microStep .owner, .microStep (.ctx 1)]

theorem test_witness_InterleavedUpdateIsLost :
    contended.params.wellFormed = true ∧ Agent.owner ≠ .ctx 1 ∧ bonded contended [5] ∧ mapped contended [5] ∧
    lpCapable contended [5] false ∧ enabled contended .owner = true ∧ enabled contended (.ctx 1) = true ∧
    (callerOf contended .owner).inFlight = none ∧ (callerOf contended (.ctx 1)).inFlight = none ∧
    (callerOf contended .owner).commands[(callerOf contended .owner).index]? = some (encode (.setPullup 5 true)) ∧
    (callerOf contended (.ctx 1)).commands[(callerOf contended (.ctx 1)).index]? =
      some (encode (.setInputEnable 5 true)) ∧
    contended.schedule =
      [.microStep .owner, .microStep (.ctx 1), .microStep .owner, .microStep (.ctx 1)] ++ [] :=
  ⟨test_wf_admits_tc1, by decide⟩

/-- The state of TV1 to TV4, for a pin. -/
def snapshotting (n : Pin) : State :=
  State.launch Config.tc1 [0x9000] [[encode (.setLevel n.val true)]]
    [.microStep .owner, .operation (.ctx 1), .microStep .owner]

theorem test_witness_SnapshotCanBeTorn :
    ∀ n ∈ ([0, 31, 32, 39] : List Pin),
      Agent.owner ≠ .ctx 1 ∧ bonded (snapshotting n) [n] ∧ enabled (snapshotting n) .owner = true ∧
      enabled (snapshotting n) (.ctx 1) = true ∧ (callerOf (snapshotting n) .owner).inFlight = none ∧
      (callerOf (snapshotting n) (.ctx 1)).inFlight = none ∧
      (callerOf (snapshotting n) .owner).commands[(callerOf (snapshotting n) .owner).index]? =
        some (encode .getAllOutputs) ∧
      (callerOf (snapshotting n) (.ctx 1)).commands[(callerOf (snapshotting n) (.ctx 1)).index]? =
        some (encode (.setLevel n.val true)) ∧
      (snapshotting n).schedule = [.microStep .owner, .operation (.ctx 1), .microStep .owner] ++ [] := by decide

theorem test_witness_SnapshotCanBeTorn_params (n : Pin) : (snapshotting n).params.wellFormed = true :=
  test_wf_admits_tc1

theorem test_witness_RunsEndOrFail :
    (recordsOk State.reset = true ∧ enabledAgents State.reset = [] ∧ ended State.reset = true) ∧
    (recordsOk failedBoard = true ∧ enabledAgents failedBoard = [] ∧
      failedBoard.fault = some ⟨.pinOutOfRange 40, .owner, 0⟩) ∧
    (recordsOk refusedBoard = true ∧ enabledAgents refusedBoard = [] ∧ refusedBoard.fault = none ∧
      refusedBoard.refused = true) ∧
    (State.reset.params.wellFormed = true ∧ failedBoard.params.wellFormed = true ∧
      refusedBoard.params.wellFormed = true) :=
  ⟨by decide, by decide, by decide, test_wf_admits_tc1, test_wf_admits_tc1, test_wf_admits_tc1⟩

theorem test_witness_StepKeepsRecords :
    recordsOk running = true ∧ recordsOk faulted = true ∧ recordsOk refusedOnce = true ∧
    (∃ t, step running = .next t) ∧ (∃ t, step faulted = .next t) ∧ ∃ t, step refusedOnce = .next t :=
  ⟨by decide, by decide, by decide, ⟨_, (step_scheduled test_wf_admits_tc1 rfl rfl).trans rfl⟩,
   ⟨_, (step_scheduled test_wf_admits_tc1 rfl rfl).trans rfl⟩, _, (step_scheduled test_wf_admits_tc1 rfl rfl).trans rfl⟩

theorem test_witness_OnlyFailedRunsStop :
    (recordsOk failedBoard = true ∧ failedBoard.params.wellFormed = true ∧
      step failedBoard = .fault (.failedRun ⟨.pinOutOfRange 40, .owner, 0⟩)) ∧
    (recordsOk refusedBoard = true ∧ refusedBoard.params.wellFormed = true ∧
      step refusedBoard = .refused .failedByRefusal) := by
  refine ⟨⟨by decide, test_wf_admits_tc1, ?_⟩, by decide, test_wf_admits_tc1, ?_⟩
  · rw [step, if_pos (show failedBoard.params.wellFormed = true from test_wf_admits_tc1)]; rfl
  · rw [step, if_pos (show refusedBoard.params.wellFormed = true from test_wf_admits_tc1)]; rfl

theorem test_witness_ReservedBitsAreNeverWritten :
    recordsOk running = true ∧ (∃ t, step running = .next t) ∧ 8 ≤ 8 ∧ 8 ≤ 31 :=
  ⟨by decide, ⟨_, (step_scheduled test_wf_admits_tc1 rfl rfl).trans rfl⟩, by decide⟩

theorem test_witness_UnreachablePinsAreKept :
    (recordsOk (State.launch tc1b [0x6106] [] [.operation .owner]) = true ∧ tc1b.bonded.get 5 = false ∧
      tc1b.ioMuxOffset.get 31 = none) ∧
    ∃ t, step (State.launch tc1b [0x6106] [] [.operation .owner]) = .next t :=
  ⟨by decide, _, (step_scheduled (s := State.launch tc1b [0x6106] [] [.operation .owner]) test_wf_admits_tc1
    rfl rfl).trans rfl⟩

theorem test_witness_EveryTurnUsesUpWork :
    recordsOk running = true ∧ enabledAgents running ≠ [] ∧ ∃ t, step running = .next t :=
  ⟨by decide, by decide, _, (step_scheduled test_wf_admits_tc1 rfl rfl).trans rfl⟩

theorem test_witness_RunsComeToRest : recordsOk running = true ∧ running.params.wellFormed = true :=
  ⟨by decide, test_wf_admits_tc1⟩

end Sys2Proof.Tests
end

section
/-! The scope family (00_scope.md R9): the address map under admitted parameters, and the parameters along a
step. -/

namespace Sys2Proof.Proofs.Scope

open Sys2Proof Sys2Proof.Machine

/-! The address map (R51). -/

theorem distinctNats_iff_nodup (xs : List Nat) : distinctNats xs = true ↔ xs.Nodup := by
  induction xs with
  | nil => simp [distinctNats]
  | cons x xs ih => simp [distinctNats, ih]

/-- The clauses of an admitted parameter set, by name. -/
theorem wellFormed_iff {p : Params} :
    p.wellFormed = true ↔ p.bitsDistinct = true ∧ p.rangesOrdered = true ∧ p.fieldsDisjoint = true ∧
      p.offsetsAligned = true ∧ p.addrsAligned = true ∧ p.addrsDistinct = true := by
  simp only [Params.wellFormed, Bool.and_eq_true, and_assoc]

/-- R9 item 3. -/
theorem allAddrs_nodup {p : Params} (h : p.wellFormed = true) : (allAddrs p).Nodup := by
  obtain ⟨-, -, -, -, -, hd⟩ := wellFormed_iff.1 h
  exact List.Nodup.of_map _ ((distinctNats_iff_nodup _).1 hd)

/-- R9 item 2. -/
theorem aligned_of_mem_allAddrs {p : Params} (h : p.wellFormed = true) {a : Addr} (ha : a ∈ allAddrs p) :
    a.toNat % 4 = 0 := by
  obtain ⟨-, -, -, -, hal, -⟩ := wellFormed_iff.1 h
  simpa using List.all_eq_true.1 hal a ha

theorem mem_bankRegs_allRegs {b : Bank} {r : Reg} (h : r ∈ bankRegs b) : r ∈ allRegs := by
  cases b <;> simp [allRegs, h]

/-- The list of R13's registers leaves none out. -/
theorem mem_allRegs (r : Reg) : r ∈ allRegs := by
  cases r with
  | out b | outSet b | outClear b | enable b | enableSet b | enableClear b | input b =>
    exact mem_bankRegs_allRegs (b := b) (by simp [bankRegs])
  | pinConfig n | funcSel n | ioMux n => simp [allRegs]

theorem mem_allAddrs {p : Params} {r : Reg} {a : Addr} (h : addrOf p r = some a) : a ∈ allAddrs p :=
  List.mem_filterMap.2 ⟨r, mem_allRegs r, h⟩

/-- Where a partial map takes no value twice along a list, searching the list for a value finds the entry it is
the value of. -/
theorem find?_eq_of_filterMap_nodup {α β : Type} [DecidableEq β] {f : α → Option β} {xs : List α} {x : α} {y : β}
    (hn : (xs.filterMap f).Nodup) (hx : x ∈ xs) (hy : f x = some y) :
    xs.find? (fun z => f z == some y) = some x := by
  induction xs with
  | nil => cases hx
  | cons z zs ih =>
    rcases List.mem_cons.1 hx with rfl | hx
    · simp [hy]
    · have hmem : y ∈ zs.filterMap f := List.mem_filterMap.2 ⟨x, hx, hy⟩
      cases hz : f z with
      | none =>
        rw [List.filterMap_cons_none hz] at hn
        simp [hz, ih hn hx]
      | some w =>
        rw [List.filterMap_cons_some hz, List.nodup_cons] at hn
        have hne : w ≠ y := fun e => hn.1 (e ▸ hmem)
        simp [hz, hne, ih hn.2 hx]

theorem regAt_addrOf {p : Params} (h : p.wellFormed = true) {r : Reg} {a : Addr} (ha : addrOf p r = some a) :
    regAt p a = some r :=
  find?_eq_of_filterMap_nodup (allAddrs_nodup h) (mem_allRegs r) ha

/-- Settles O17: the addresses of all registers are distinct and aligned, and every register is among them. -/
theorem addressesNameOneRegister : Obligations.AddressesNameOneRegister := by
  intro p r a hw ha
  exact ⟨regAt_addrOf hw ha, aligned_of_mem_allAddrs hw (mem_allAddrs ha)⟩

/-! The parameters along a step (R9, item 4). -/

theorem step_refuses_badParameters {s : State} (h : s.params.wellFormed = false) :
    step s = .refused .badParameters := by
  simp [step, h]

theorem nextTurn_keeps_params {s s' : State} {tn : Turn} (h : nextTurn s = some (tn, s')) :
    s'.params = s.params := by
  rw [(nextTurn_some h).2]

theorem turnEffect_keeps_params {s t : State} (h : TurnEffect s t) : t.params = s.params := by
  cases h with
  | idle h => rw [h]
  | refused cw e hn hf hd h => simp [h]
  | faulted cw i e hn hf hd hp h => simp [h]
  | completed u r hk h => simp [h, hk.params]
  | further f m ms got u hi ht hms hp hk h => simp [h, hk.params]
  | entered cw i plan m ms got u hn hf hd hp ht hms hm hk h => simp [h, hk.params]

theorem step_keeps_params {s t : State} (h : step s = .next t) : t.params = s.params := by
  obtain ⟨-, ⟨tn, s', hn, he⟩ | ⟨-, -, rfl⟩⟩ := step_cases h
  · exact (turnEffect_keeps_params he).trans (nextTurn_keeps_params hn)
  · rfl

/-- Settles O43: `step` looks at the parameters first, and neither the choice of a turn nor a turn writes them. -/
theorem parametersAreCheckedAndFixed : Obligations.ParametersAreCheckedAndFixed :=
  ⟨fun _ => step_refuses_badParameters, fun _ _ => step_keeps_params⟩

end Sys2Proof.Proofs.Scope
end

section
/-! The state family (10_state.md): the callers' records and their invariant, and which registers a turn can
change. -/

namespace Sys2Proof.Proofs.MachineState

open Sys2Proof Sys2Proof.Machine

/-! The moving agent's record, replaced (R65, R152). -/

/-- From s to t the moving agent's record becomes c; every other agent, the parameters and the mover are as
before. -/
structure MoverBecomes (s t : State) (c : Caller) : Prop where
  params : t.params = s.params
  mover : t.mover = s.mover
  agents : ∀ a, agentExists t a = agentExists s a
  self : callerOf t s.mover = c
  others : ∀ a, a ≠ s.mover → callerOf t a = callerOf s a

theorem setCaller_moverBecomes {s u : State} (ho : u.owner = s.owner) (hc : u.contexts = s.contexts)
    (hp : u.params = s.params) (hm : u.mover = s.mover) (ha : agentExists s s.mover = true) (c : Caller) :
    MoverBecomes s (setCaller u u.mover c) c where
  params := by simp [hp]
  mover := by simp [hm]
  agents a := by rw [agentExists_setCaller]; exact agentExists_congr (by rw [hc]) a
  self := by
    rw [hm]
    exact callerOf_setCaller_self ((agentExists_congr (by rw [hc]) _).trans ha) c
  others a hne := by rw [hm, callerOf_setCaller_ne hne.symm, callerOf_congr ho hc]

theorem complete_moverBecomes {s u : State} (hk : KeepsRecords s u) (ha : agentExists s s.mover = true)
    (r : Result) : MoverBecomes s (complete r u) (completed (callerOf s s.mover) r) := by
  have hc : callerOf u u.mover = callerOf s s.mover := by rw [hk.mover, hk.callerOf]
  rw [complete, hc]
  exact setCaller_moverBecomes hk.owner hk.contexts hk.params hk.mover ha _

theorem setInFlight_moverBecomes {s u : State} (hk : KeepsRecords s u) (ha : agentExists s s.mover = true)
    (f : Option InFlight) :
    MoverBecomes s (setInFlight f u) { callerOf s s.mover with inFlight := f } := by
  have hc : callerOf u u.mover = callerOf s s.mover := by rw [hk.mover, hk.callerOf]
  rw [setInFlight, hc]
  exact setCaller_moverBecomes hk.owner hk.contexts hk.params hk.mover ha _

theorem raiseFault_moverBecomes {s : State} (ha : agentExists s s.mover = true) (e : FaultReason) :
    MoverBecomes s (raiseFault e s) { callerOf s s.mover with halted := some (.faulted e) } :=
  setCaller_moverBecomes (s := s)
    (u := { s with fault := s.fault.or (some ⟨e, s.mover, (callerOf s s.mover).index⟩) })
    rfl rfl rfl rfl ha _

theorem refuseCommand_moverBecomes {s : State} (ha : agentExists s s.mover = true) (e : CommandRefusal) :
    MoverBecomes s (refuseCommand e s) { callerOf s s.mover with halted := some (.refused e) } :=
  setCaller_moverBecomes (s := s) (u := { s with refused := true }) rfl rfl rfl rfl ha _

/-- A turn replaces the moving agent's record by one with at most one result more. -/
theorem turnEffect_moverBecomes {s t : State} (h : TurnEffect s t) (ha : agentExists s s.mover = true) :
    ∃ c, MoverBecomes s t c ∧ ∃ rs, c.results = (callerOf s s.mover).results ++ rs ∧ rs.length ≤ 1 := by
  cases h with
  | idle h => subst h; exact ⟨_, ⟨rfl, rfl, fun _ => rfl, rfl, fun _ _ => rfl⟩, [], by simp⟩
  | refused cw e hn hf hd h => subst h; exact ⟨_, refuseCommand_moverBecomes ha e, [], by simp⟩
  | faulted cw i e hn hf hd hp h => subst h; exact ⟨_, raiseFault_moverBecomes ha e, [], by simp⟩
  | completed u r hk h => subst h; exact ⟨_, complete_moverBecomes hk ha r, [r], by simp [completed]⟩
  | further f m ms got u hi ht hms hp hk h =>
    subst h; exact ⟨_, setInFlight_moverBecomes hk ha _, [], by simp⟩
  | entered cw i plan m ms got u hn hf hd hp ht hms hm hk h =>
    subst h; exact ⟨_, setInFlight_moverBecomes hk ha _, [], by simp⟩

/-! FAULT and REFUSED along a turn (R37). -/

/-- A turn leaves FAULT alone, or is one that raises a fault. -/
theorem turnEffect_fault {s t : State} (h : TurnEffect s t) : t.fault = s.fault ∨ ∃ e, t = raiseFault e s := by
  cases h with
  | idle h => exact .inl (by rw [h])
  | refused cw e hn hf hd h => exact .inl (by simp [h])
  | faulted cw i e hn hf hd hp h => exact .inr ⟨e, h⟩
  | completed u r hk h => exact .inl (by simp [h, hk.fault])
  | further f m ms got u hi ht hms hp hk h => exact .inl (by simp [h, hk.fault])
  | entered cw i plan m ms got u hn hf hd hp ht hms hm hk h => exact .inl (by simp [h, hk.fault])

theorem turnEffect_refused {s t : State} (h : TurnEffect s t) (hr : s.refused = true) : t.refused = true := by
  cases h with
  | idle h => rw [h, hr]
  | refused cw e hn hf hd h => simp [h]
  | faulted cw i e hn hf hd hp h => simp [h, hr]
  | completed u r hk h => simp [h, hk.refused, hr]
  | further f m ms got u hi ht hms hp hk h => simp [h, hk.refused, hr]
  | entered cw i plan m ms got u hn hf hd hp ht hms hm hk h => simp [h, hk.refused, hr]

theorem turnEffect_keeps_fault {s t : State} (h : TurnEffect s t) {r : FaultRecord} (hr : s.fault = some r) :
    t.fault = some r := by
  rcases turnEffect_fault h with he | ⟨e, rfl⟩
  · rw [he, hr]
  · simp [hr]

/-- A new FAULT record is of the moving agent, which has stopped for its reason at its command (R137). -/
theorem turnEffect_new_fault {s t : State} (h : TurnEffect s t) (ha : agentExists s s.mover = true)
    {r : FaultRecord} (hs : s.fault = none) (ht : t.fault = some r) :
    r.agent = s.mover ∧ r.index = (callerOf s s.mover).index ∧
      (callerOf t s.mover).halted = some (.faulted r.reason) := by
  rcases turnEffect_fault h with he | ⟨e, rfl⟩
  · simp [he, hs] at ht
  · have hr : (⟨e, s.mover, (callerOf s s.mover).index⟩ : FaultRecord) = r := by simpa [hs] using ht
    subst hr
    exact ⟨rfl, rfl, by rw [(raiseFault_moverBecomes ha e).self]⟩

/-! The state a turn begins in: the mover is chosen, and nothing else is done. -/

/-- s' is s with an agent that may move chosen as the mover. -/
structure Readied (s s' : State) : Prop where
  frame : s' = { s with schedule := s'.schedule, mover := s'.mover, draws := s'.draws }
  ready : enabled s' s'.mover = true

theorem Readied.params {s s' : State} (h : Readied s s') : s'.params = s.params := by rw [h.frame]
theorem Readied.fault {s s' : State} (h : Readied s s') : s'.fault = s.fault := by rw [h.frame]
theorem Readied.refused {s s' : State} (h : Readied s s') : s'.refused = s.refused := by rw [h.frame]
theorem Readied.lpLog {s s' : State} (h : Readied s s') : s'.lpLog = s.lpLog := by rw [h.frame]
theorem Readied.callerOf {s s' : State} (h : Readied s s') (a : Agent) : callerOf s' a = callerOf s a :=
  callerOf_congr (by rw [h.frame]) (by rw [h.frame]) a
theorem Readied.recordsOk {s s' : State} (h : Readied s s') : recordsOk s' = recordsOk s := by
  rw [h.frame]; rfl
theorem Readied.agentExists {s s' : State} (h : Readied s s') : agentExists s' s'.mover = true :=
  (Bool.and_eq_true_iff.1 h.ready).1

theorem nextTurn_readied {s s' : State} {tn : Turn} (h : nextTurn s = some (tn, s')) : Readied s s' := by
  obtain ⟨he, hs⟩ := nextTurn_some h
  have hm : s'.mover = tn.agent := by rw [hs]
  refine ⟨by rw [hm]; exact hs, ?_⟩
  rw [hm, hs]
  exact he

/-- A step that answers leaves the state as it is, or is a turn of an agent that may move. -/
theorem step_turn {s t : State} (h : step s = .next t) :
    t = s ∨ ∃ tn s', Readied s s' ∧ takeTurn tn s' = .next t := by
  unfold step at h
  split at h
  · split at h
    · rename_i tn s' hn
      exact .inr ⟨tn, s', nextTurn_readied hn, h⟩
    · unfold stopped at h
      split at h
      · cases h; exact .inl rfl
      · split at h <;> cases h
  · cases h

/-! The micro-steps of a turn. -/

/-- m is one of the micro-steps the moving agent has left: of the operation it is inside of, or else of its next
command. -/
inductive Pending (s : State) (m : MicroStep) : Prop where
  | inside (f : InFlight) (hi : (callerOf s s.mover).inFlight = some f) (hm : m ∈ f.todo)
  | fresh (cw : CmdWord) (i : Instr) (plan : Plan) (hf : fetch s = some cw) (hd : decode cw = .ok i)
      (hp : planOf s.params i = .ok plan) (hm : m ∈ plan.steps)

/-- Some micro-step of P takes s to t. -/
def Takes (P : MicroStep → Prop) (s t : State) : Prop :=
  ∃ m got got', P m ∧ perform m got s = .next (got', t)

/-- Micro-steps of P, one after another, take s to t. -/
def MicroRun (P : MicroStep → Prop) : State → State → Prop := Relation.ReflTransGen (Takes P)

/-- Only the agents' records, FAULT and REFUSED differ. -/
def RecordUpdate (s t : State) : Prop :=
  t = { s with fault := t.fault, refused := t.refused, owner := t.owner, contexts := t.contexts }

theorem setCaller_recordUpdate (s : State) (a : Agent) (c : Caller) : RecordUpdate s (setCaller s a c) := by
  simpa [RecordUpdate] using setCaller_eq s a c

theorem complete_recordUpdate (r : Result) (s : State) : RecordUpdate s (complete r s) :=
  setCaller_recordUpdate s s.mover _

theorem setInFlight_recordUpdate (f : Option InFlight) (s : State) : RecordUpdate s (setInFlight f s) :=
  setCaller_recordUpdate s s.mover _

theorem raiseFault_recordUpdate (e : FaultReason) (s : State) : RecordUpdate s (raiseFault e s) :=
  setCaller_recordUpdate { s with fault := s.fault.or (some ⟨e, s.mover, (callerOf s s.mover).index⟩) } s.mover _

theorem refuseCommand_recordUpdate (e : CommandRefusal) (s : State) : RecordUpdate s (refuseCommand e s) :=
  setCaller_recordUpdate { s with refused := true } s.mover _

theorem runSteps_microRun {P : MicroStep → Prop} {f : Finish} {ms : List MicroStep} {got : List Word}
    {s t : State} (hP : ∀ m ∈ ms, P m) (h : runSteps f ms got s = .next t) :
    ∃ u, MicroRun P s u ∧ RecordUpdate u t := by
  induction ms generalizing s got with
  | nil => cases h; exact ⟨s, .refl, complete_recordUpdate _ s⟩
  | cons m ms ih =>
    obtain ⟨⟨g, v⟩, hm, hr⟩ := andThen_next h
    obtain ⟨u, hrun, hu⟩ := ih (fun x hx => hP x (List.mem_cons_of_mem m hx)) hr
    exact ⟨u, .head ⟨m, got, g, hP m List.mem_cons_self, hm⟩ hrun, hu⟩

theorem operate_microRun {P : MicroStep → Prop} {plan : Except FaultReason Plan} {s t : State}
    (hP : ∀ p, plan = .ok p → ∀ m ∈ p.steps, P m) (h : operate plan s = .next t) :
    ∃ u, MicroRun P s u ∧ RecordUpdate u t := by
  cases plan with
  | error e => cases h; exact ⟨s, .refl, raiseFault_recordUpdate e s⟩
  | ok p => exact runSteps_microRun (hP p rfl) h

theorem advance_microRun {P : MicroStep → Prop} {f : InFlight} {s t : State} (hP : ∀ m ∈ f.todo, P m)
    (h : advance f s = .next t) : ∃ u, MicroRun P s u ∧ RecordUpdate u t := by
  rcases advance_next h with ⟨-, rfl⟩ | ⟨m, ms, got, u, ht, hm, -, ⟨-, rfl⟩ | ⟨-, rfl⟩⟩
  · exact ⟨s, .refl, complete_recordUpdate _ s⟩
  · exact ⟨u, .single ⟨m, f.got, got, hP m (by simp [ht]), hm⟩, complete_recordUpdate _ u⟩
  · exact ⟨u, .single ⟨m, f.got, got, hP m (by simp [ht]), hm⟩, setInFlight_recordUpdate _ u⟩

theorem startOperation_microRun {P : MicroStep → Prop} {plan : Except FaultReason Plan} {s t : State}
    (hP : ∀ p, plan = .ok p → ∀ m ∈ p.steps, P m) (h : startOperation plan s = .next t) :
    ∃ u, MicroRun P s u ∧ RecordUpdate u t := by
  cases plan with
  | error e => cases h; exact ⟨s, .refl, raiseFault_recordUpdate e s⟩
  | ok p => exact advance_microRun (f := ⟨p.steps, p.finish, []⟩) (hP p rfl) h

/-- A turn takes micro-steps the moving agent had left, then writes its record. -/
theorem takeTurn_microRun {tn : Turn} {s t : State} (h : takeTurn tn s = .next t) :
    ∃ u, MicroRun (Pending s) s u ∧ RecordUpdate u t := by
  cases tn with
  | microStep a =>
    simp only [takeTurn, runMicroStep] at h
    split at h
    · rename_i f hi
      exact advance_microRun (fun m hm => .inside f hi hm) h
    · split at h
      · cases h; exact ⟨s, .refl, rfl⟩
      · rename_i cw hf
        split at h
        · cases h; exact ⟨s, .refl, refuseCommand_recordUpdate _ s⟩
        · rename_i i hd
          exact startOperation_microRun (fun p hp m hm => .fresh cw i p hf hd hp hm) h
  | operation a =>
    simp only [takeTurn, runOperation] at h
    split at h
    · rename_i f hi
      exact runSteps_microRun (fun m hm => .inside f hi hm) h
    · split at h
      · cases h; exact ⟨s, .refl, rfl⟩
      · rename_i cw hf
        split at h
        · cases h; exact ⟨s, .refl, refuseCommand_recordUpdate _ s⟩
        · rename_i i hd
          rw [exec_eq_operate] at h
          exact operate_microRun (fun p hp m hm => .fresh cw i p hf hd hp hm) h

/-! What a micro-step does to the state, by kind. -/

theorem perform_read {r : Reg} {got got' : List Word} {s t : State}
    (h : perform (.read r) got s = .next (got', t)) : t = s ∨ t = drawn s := by
  obtain ⟨⟨w, u⟩, hr, hx⟩ := andThen_next h
  cases hx
  exact readReg_next hr

theorem perform_write {r : Reg} {v : Word} {got got' : List Word} {s t : State}
    (h : perform (.write r v) got s = .next (got', t)) : writeReg r v s = .next t := by
  rw [perform] at h
  obtain ⟨u, hw, hx⟩ := andThen_next h
  cases hx
  exact hw

theorem perform_writeBack {r : Reg} {k : BitIndex} {en : Bool} {got got' : List Word} {s t : State}
    (h : perform (.writeBack r k en) got s = .next (got', t)) :
    writeReg r (editBit (got.getLastD 0) k en) s = .next t := by
  rw [perform] at h
  obtain ⟨u, hw, hx⟩ := andThen_next h
  cases hx
  exact hw

/-! LP_LOG along a turn (R38). -/

/-- From s to t the mover is kept, and LP_LOG grows by entries of the mover only. -/
def LogsForMover (s t : State) : Prop :=
  t.mover = s.mover ∧ ∃ es, t.lpLog = s.lpLog ++ es ∧ ∀ e ∈ es, e.agent = s.mover

theorem LogsForMover.of_eq {s t : State} (hm : t.mover = s.mover) (hl : t.lpLog = s.lpLog) :
    LogsForMover s t := ⟨hm, [], by simp [hl], by simp⟩

theorem LogsForMover.trans {s t u : State} (h : LogsForMover s t) (h' : LogsForMover t u) :
    LogsForMover s u := by
  obtain ⟨hm, es, he, ha⟩ := h
  obtain ⟨hm', es', he', ha'⟩ := h'
  refine ⟨hm'.trans hm, es ++ es', by rw [he', he, List.append_assoc], fun e hmem => ?_⟩
  rcases List.mem_append.1 hmem with hmem | hmem
  · exact ha e hmem
  · exact (ha' e hmem).trans hm

theorem writeReg_logs {r : Reg} {v : Word} {s t : State} (h : writeReg r v s = .next t) : LogsForMover s t :=
  .of_eq (by rw [writeReg_next h]) (by rw [writeReg_next h])

theorem perform_logs {m : MicroStep} {got got' : List Word} {s t : State}
    (h : perform m got s = .next (got', t)) : LogsForMover s t := by
  cases m with
  | read r => rcases perform_read h with rfl | rfl <;> exact .of_eq rfl rfl
  | write r v => exact writeReg_logs (perform_write h)
  | writeBack r k en => exact writeReg_logs (perform_writeBack h)
  | call q n en => cases h; exact ⟨rfl, _, rfl, by simp⟩

theorem microRun_logs {P : MicroStep → Prop} {s t : State} (h : MicroRun P s t) : LogsForMover s t := by
  induction h with
  | refl => exact .of_eq rfl rfl
  | tail _ hs ih =>
    obtain ⟨m, got, got', -, hp⟩ := hs
    exact ih.trans (perform_logs hp)

theorem takeTurn_logs {tn : Turn} {s t : State} (h : takeTurn tn s = .next t) : LogsForMover s t := by
  obtain ⟨u, hrun, hu⟩ := takeTurn_microRun h
  exact (microRun_logs hrun).trans (.of_eq (by rw [hu]) (by rw [hu]))

/-! Which registers a micro-step writes (R24, R29 to R31, R35, R58). -/

/-- A micro-step that writes, of the bank registers and of PIN_CONFIG and FUNC_SEL, only what belongs to pins of B,
and only the IO_MUX of pins of M. -/
inductive Confined (B M : Pin → Prop) : MicroStep → Prop where
  | read (r : Reg) : Confined B M (.read r)
  | call (q : LpPrim) (n : Pin) (en : Option Bool) : Confined B M (.call q n en)
  | level {n : Pin} (hn : B n) (level : Bool) : Confined B M (.write (levelPort (bankOf n) level) (pinMask n))
  | enable {n : Pin} (hn : B n) (en : Bool) : Confined B M (.write (enablePort (bankOf n) en) (pinMask n))
  | pinConfig {n : Pin} (hn : B n) (v : Word) : Confined B M (.write (.pinConfig n) v)
  | funcSel {n : Pin} (hn : B n) (v : Word) : Confined B M (.write (.funcSel n) v)
  | ioMux {n : Pin} (hn : M n) (v : Word) : Confined B M (.write (.ioMux n) v)
  | editPinConfig {n : Pin} (hn : B n) (k : BitIndex) (en : Bool) : Confined B M (.writeBack (.pinConfig n) k en)
  | editIoMux {n : Pin} (hn : M n) (k : BitIndex) (en : Bool) : Confined B M (.writeBack (.ioMux n) k en)

theorem Confined.mono {B M B' M' : Pin → Prop} {m : MicroStep} (h : Confined B M m) (hB : ∀ n, B n → B' n)
    (hM : ∀ n, M n → M' n) : Confined B' M' m := by
  cases h with
  | read r => exact .read r
  | call q n en => exact .call q n en
  | level hn v => exact .level (hB _ hn) v
  | enable hn v => exact .enable (hB _ hn) v
  | pinConfig hn v => exact .pinConfig (hB _ hn) v
  | funcSel hn v => exact .funcSel (hB _ hn) v
  | ioMux hn v => exact .ioMux (hM _ hn) v
  | editPinConfig hn k en => exact .editPinConfig (hB _ hn) k en
  | editIoMux hn k en => exact .editIoMux (hM _ hn) k en

/-- From s to t only the registers of pins of B changed (of a bank register, only their bits), and only the IO_MUX
and the held bit of pins of M. -/
structure ChangesOnly (B M : Pin → Prop) (s t : State) : Prop where
  out : ∀ b k, (∀ n, B n → bankOf n = b → (bitOf n).val ≠ k) →
    (bankGet t.out b).getLsbD k = (bankGet s.out b).getLsbD k
  enable : ∀ b k, (∀ n, B n → bankOf n = b → (bitOf n).val ≠ k) →
    (bankGet t.enable b).getLsbD k = (bankGet s.enable b).getLsbD k
  pinConfig : ∀ n, ¬ B n → t.pinConfig.get n = s.pinConfig.get n
  funcSel : ∀ n, ¬ B n → t.funcSel.get n = s.funcSel.get n
  ioMux : ∀ n, ¬ M n → t.ioMux.get n = s.ioMux.get n
  inHold : ∀ n, ¬ M n → t.inHold.get n = s.inHold.get n

theorem ChangesOnly.refl (B M : Pin → Prop) (s : State) : ChangesOnly B M s s :=
  ⟨fun _ _ _ => rfl, fun _ _ _ => rfl, fun _ _ => rfl, fun _ _ => rfl, fun _ _ => rfl, fun _ _ => rfl⟩

theorem ChangesOnly.trans {B M : Pin → Prop} {s t u : State} (h : ChangesOnly B M s t)
    (h' : ChangesOnly B M t u) : ChangesOnly B M s u where
  out b k hk := (h'.out b k hk).trans (h.out b k hk)
  enable b k hk := (h'.enable b k hk).trans (h.enable b k hk)
  pinConfig n hn := (h'.pinConfig n hn).trans (h.pinConfig n hn)
  funcSel n hn := (h'.funcSel n hn).trans (h.funcSel n hn)
  ioMux n hn := (h'.ioMux n hn).trans (h.ioMux n hn)
  inHold n hn := (h'.inHold n hn).trans (h.inHold n hn)

theorem RecordUpdate.changesOnly {s t : State} (h : RecordUpdate s t) (B M : Pin → Prop) :
    ChangesOnly B M s t := by
  rw [h]
  exact ⟨fun _ _ _ => rfl, fun _ _ _ => rfl, fun _ _ => rfl, fun _ _ => rfl, fun _ _ => rfl, fun _ _ => rfl⟩

theorem Readied.changesOnly {s s' : State} (h : Readied s s') (B M : Pin → Prop) : ChangesOnly B M s s' := by
  rw [h.frame]
  exact ⟨fun _ _ _ => rfl, fun _ _ _ => rfl, fun _ _ => rfl, fun _ _ => rfl, fun _ _ => rfl, fun _ _ => rfl⟩

/-- Setting or clearing a pin's bit of its bank leaves every other bit of both banks (R46, R47). -/
theorem bankSet_pinMask_getLsbD {x : Banked Word} {n : Pin} {b : Bank} {k : Nat}
    (hk : bankOf n = b → (bitOf n).val ≠ k) :
    (bankGet (bankSet x (bankOf n) (bankGet x (bankOf n) ||| pinMask n)) b).getLsbD k = (bankGet x b).getLsbD k ∧
    (bankGet (bankSet x (bankOf n) (bankGet x (bankOf n) &&& ~~~pinMask n)) b).getLsbD k =
      (bankGet x b).getLsbD k := by
  by_cases hb : bankOf n = b
  · have hne := hk hb
    subst hb
    simp only [bankGet_bankSet, if_true, pinMask, BitVec.getLsbD_or, BitVec.getLsbD_and, BitVec.getLsbD_not,
      bitMask_getLsbD, hne, decide_false, Bool.or_false, Bool.not_false, Bool.and_true, true_and,
      Bool.and_eq_left_iff_imp, decide_eq_true_eq]
    exact BitVec.lt_of_getLsbD
  · simp [hb]

theorem levelPort_changesOnly {B M : Pin → Prop} {n : Pin} (hn : B n) {level : Bool} {s t : State}
    (h : writeReg (levelPort (bankOf n) level) (pinMask n) s = .next t) : ChangesOnly B M s t := by
  have hbit (b : Bank) (k : Nat) (hk : ∀ n, B n → bankOf n = b → (bitOf n).val ≠ k) :=
    bankSet_pinMask_getLsbD (x := s.out) (hk n hn)
  cases level with
  | true =>
    cases h
    exact { ChangesOnly.refl B M s with out := fun b k hk => (hbit b k hk).1 }
  | false =>
    cases h
    exact { ChangesOnly.refl B M s with out := fun b k hk => (hbit b k hk).2 }

theorem enablePort_changesOnly {B M : Pin → Prop} {n : Pin} (hn : B n) {en : Bool} {s t : State}
    (h : writeReg (enablePort (bankOf n) en) (pinMask n) s = .next t) : ChangesOnly B M s t := by
  have hbit (b : Bank) (k : Nat) (hk : ∀ n, B n → bankOf n = b → (bitOf n).val ≠ k) :=
    bankSet_pinMask_getLsbD (x := s.enable) (hk n hn)
  cases en with
  | true =>
    cases h
    exact { ChangesOnly.refl B M s with enable := fun b k hk => (hbit b k hk).1 }
  | false =>
    cases h
    exact { ChangesOnly.refl B M s with enable := fun b k hk => (hbit b k hk).2 }

/-- Writing one pin's entry leaves those of the pins outside a set it is in. -/
theorem get_putPin_of_not {α : Type} {S : Pin → Prop} {n : Pin} (hn : S n) (x : PinTable α) (v : α) (m : Pin)
    (hm : ¬ S m) : (putPin x n v).get m = x.get m := by
  rw [get_putPin, if_neg]
  rintro rfl
  exact hm hn

theorem pinConfig_changesOnly {B M : Pin → Prop} {n : Pin} (hn : B n) {v : Word} {s t : State}
    (h : writeReg (.pinConfig n) v s = .next t) : ChangesOnly B M s t := by
  cases h
  exact { ChangesOnly.refl B M s with pinConfig := get_putPin_of_not hn _ _ }

theorem funcSel_changesOnly {B M : Pin → Prop} {n : Pin} (hn : B n) {v : Word} {s t : State}
    (h : writeReg (.funcSel n) v s = .next t) : ChangesOnly B M s t := by
  cases h
  exact { ChangesOnly.refl B M s with funcSel := get_putPin_of_not hn _ _ }

theorem ioMux_changesOnly {B M : Pin → Prop} {n : Pin} (hn : M n) {v : Word} {s t : State}
    (h : writeReg (.ioMux n) v s = .next t) : ChangesOnly B M s t := by
  simp only [writeReg] at h
  split at h <;> cases h
  exact { ChangesOnly.refl B M s with
    ioMux := get_putPin_of_not hn _ _, inHold := get_putPin_of_not hn _ _ }

theorem perform_changesOnly {B M : Pin → Prop} {m : MicroStep} {got got' : List Word} {s t : State}
    (hc : Confined B M m) (h : perform m got s = .next (got', t)) : ChangesOnly B M s t := by
  cases hc with
  | read r =>
    rcases perform_read h with rfl | rfl
    · exact .refl B M _
    · exact { ChangesOnly.refl B M s with }
  | call q n en => cases h; exact { ChangesOnly.refl B M s with }
  | level hn v => exact levelPort_changesOnly hn (perform_write h)
  | enable hn v => exact enablePort_changesOnly hn (perform_write h)
  | pinConfig hn v => exact pinConfig_changesOnly hn (perform_write h)
  | funcSel hn v => exact funcSel_changesOnly hn (perform_write h)
  | ioMux hn v => exact ioMux_changesOnly hn (perform_write h)
  | editPinConfig hn k en => exact pinConfig_changesOnly hn (perform_writeBack h)
  | editIoMux hn k en => exact ioMux_changesOnly hn (perform_writeBack h)

theorem microRun_changesOnly {P : MicroStep → Prop} {B M : Pin → Prop} {s t : State}
    (hP : ∀ m, P m → Confined B M m) (h : MicroRun P s t) : ChangesOnly B M s t := by
  induction h with
  | refl => exact .refl B M s
  | tail _ hs ih =>
    obtain ⟨m, got, got', hm, hp⟩ := hs
    exact ih.trans (perform_changesOnly (hP m hm) hp)

/-! Which registers an operation's plan writes (R98). -/

/-- n is the operation's pin, and bonded out. -/
def OnPin (p : Params) (i : Instr) (n : Pin) : Prop := pinOf i = some n.val ∧ p.bonded.get n = true

/-- n is the pin of an IO_MUX-touching operation, bonded out and mapped. -/
def OnMuxPin (p : Params) (i : Instr) (n : Pin) : Prop :=
  OnPin p i n ∧ touchesIoMux i = true ∧ isMapped p n = true

theorem onMuxPin_of_checkMuxPin {p : Params} {i : Instr} {pin : Nat} {n : Pin} (hi : pinOf i = some pin)
    (ht : touchesIoMux i = true) (h : checkMuxPin p pin = .ok n) : OnPin p i n ∧ OnMuxPin p i n := by
  obtain ⟨rfl, hb, hm⟩ := checkMuxPin_eq_ok h
  exact ⟨⟨hi, hb⟩, ⟨hi, hb⟩, ht, hm⟩

theorem onPin_of_checkPin {p : Params} {i : Instr} {pin : Nat} {n : Pin} (hi : pinOf i = some pin)
    (h : checkPin p pin = .ok n) : OnPin p i n := by
  obtain ⟨rfl, hb⟩ := checkPin_eq_ok h
  exact ⟨hi, hb⟩

section Plans

variable {B M : Pin → Prop} {p : Params} {pin : Nat} {plan : Plan} {k : BitIndex} {en : Bool}

theorem releaseSteps_confined (n : Pin) : ∀ m ∈ releaseSteps n, Confined B M m := by
  intro m hm
  simp only [releaseSteps, List.mem_cons, List.not_mem_nil, or_false] at hm
  rcases hm with rfl | rfl | rfl <;> exact .call _ _ _

theorem defaultSteps_confined {n : Pin} (hB : B n) (hM : M n) : ∀ m ∈ defaultSteps p n, Confined B M m := by
  intro m hm
  simp only [defaultSteps, List.mem_cons, List.not_mem_nil, or_false] at hm
  rcases hm with rfl | rfl | rfl
  · exact .pinConfig hB _
  · exact .funcSel hB _
  · exact .ioMux hM _

theorem setLevelSteps_confined {n : Pin} (hB : B n) (level : Bool) :
    ∀ m ∈ setLevelSteps n level, Confined B M m := by
  intro m hm
  cases List.mem_singleton.1 hm
  exact .level hB level

/-- A read-modify-write writes its register only (R57). -/
theorem modifyBit_confined {r : Reg} (hr : Confined B M (.writeBack r k en)) :
    ∀ m ∈ (modifyBit r k en).steps, Confined B M m := by
  intro m hm
  simp only [modifyBit, List.mem_cons, List.not_mem_nil, or_false] at hm
  rcases hm with rfl | rfl
  · exact .read r
  · exact hr

theorem planReset_confined (h : planReset p pin = .ok plan)
    (hn : ∀ n, checkMuxPin p pin = .ok n → B n ∧ M n) : ∀ m ∈ plan.steps, Confined B M m := by
  unfold planReset at h
  split at h <;> cases h
  rename_i n hc
  obtain ⟨hB, hM⟩ := hn n hc
  intro m hm
  rcases List.mem_append.1 hm with hm | hm
  · rcases List.mem_append.1 hm with hm | hm
    · split at hm
      · exact releaseSteps_confined n m hm
      · cases hm
    · exact defaultSteps_confined hB hM m hm
  · exact setLevelSteps_confined hB false m hm

theorem planPull_confined {prim : LpPrim} (h : planPull p prim k pin en = .ok plan)
    (hn : ∀ n, checkMuxPin p pin = .ok n → B n ∧ M n) : ∀ m ∈ plan.steps, Confined B M m := by
  unfold planPull at h
  split at h
  · cases h
  · rename_i n hc
    split at h <;> cases h
    · intro m hm
      cases List.mem_singleton.1 hm
      exact .call prim n (some en)
    · exact modifyBit_confined (.editIoMux (hn n hc).2 k en)

theorem planSetInputEnable_confined (h : planSetInputEnable p pin en = .ok plan)
    (hn : ∀ n, checkMuxPin p pin = .ok n → B n ∧ M n) : ∀ m ∈ plan.steps, Confined B M m := by
  unfold planSetInputEnable at h
  split at h <;> cases h
  rename_i n hc
  exact modifyBit_confined (.editIoMux (hn n hc).2 _ en)

theorem planSetOpenDrain_confined (h : planSetOpenDrain p pin en = .ok plan)
    (hn : ∀ n, checkPin p pin = .ok n → B n) : ∀ m ∈ plan.steps, Confined B M m := by
  unfold planSetOpenDrain at h
  split at h <;> cases h
  rename_i n hc
  exact modifyBit_confined (.editPinConfig (hn n hc) _ en)

theorem planSetOutputEnable_confined (h : planSetOutputEnable p pin en = .ok plan)
    (hn : ∀ n, checkPin p pin = .ok n → B n) : ∀ m ∈ plan.steps, Confined B M m := by
  unfold planSetOutputEnable at h
  split at h <;> cases h
  rename_i n hc
  intro m hm
  cases List.mem_singleton.1 hm
  exact .enable (hn n hc) en

theorem planSetLevel_confined (h : planSetLevel p pin en = .ok plan)
    (hn : ∀ n, checkPin p pin = .ok n → B n) : ∀ m ∈ plan.steps, Confined B M m := by
  unfold planSetLevel at h
  split at h <;> cases h
  rename_i n hc
  exact setLevelSteps_confined (hn n hc) en

theorem planGetLevel_confined (h : planGetLevel p pin = .ok plan) : ∀ m ∈ plan.steps, Confined B M m := by
  unfold planGetLevel at h
  split at h <;> cases h
  intro m hm
  cases List.mem_singleton.1 hm
  exact .read _

end Plans

/-- An operation that passed its checks writes registers of its own pin only, and IO_MUX only where it is an
IO_MUX-touching one. -/
theorem planOf_confined {p : Params} {i : Instr} {plan : Plan} (h : planOf p i = .ok plan) :
    ∀ m ∈ plan.steps, Confined (OnPin p i) (OnMuxPin p i) m := by
  cases i with
  | reset pin => exact planReset_confined h fun _ => onMuxPin_of_checkMuxPin rfl rfl
  | setPullup pin en => exact planPull_confined h fun _ => onMuxPin_of_checkMuxPin rfl rfl
  | setPulldown pin en => exact planPull_confined h fun _ => onMuxPin_of_checkMuxPin rfl rfl
  | setInputEnable pin en => exact planSetInputEnable_confined h fun _ => onMuxPin_of_checkMuxPin rfl rfl
  | setOutputEnable pin en => exact planSetOutputEnable_confined h fun _ => onPin_of_checkPin rfl
  | setOpenDrain pin en => exact planSetOpenDrain_confined h fun _ => onPin_of_checkPin rfl
  | setLevel pin level => exact planSetLevel_confined h fun _ => onPin_of_checkPin rfl
  | getLevel pin => exact planGetLevel_confined h
  | getAllInputs | getAllOutputs =>
    cases h
    intro m hm
    simp only [List.mem_cons, List.not_mem_nil, or_false] at hm
    rcases hm with rfl | rfl <;> exact .read _

theorem exec_changesOnly {i : Instr} {s t : State} (h : exec i s = .next t) :
    ChangesOnly (OnPin s.params i) (OnMuxPin s.params i) s t := by
  rw [exec_eq_operate] at h
  obtain ⟨u, hrun, hu⟩ := operate_microRun (fun _ hp => planOf_confined hp) h
  exact (microRun_changesOnly (fun _ hm => hm) hrun).trans (hu.changesOnly _ _)

/-! The invariant of the records, by name (R37, R39, R65, R137, R141). -/

/-- `restOf`, as a split of the plan: the micro-steps taken, at least one, then those left, at least one. -/
theorem restOf_iff {plan : Plan} {f : InFlight} :
    restOf plan f = true ↔ ∃ taken, taken ≠ [] ∧ f.todo ≠ [] ∧ plan.steps = taken ++ f.todo ∧
      f.finish = plan.finish ∧ f.got.length = taken.countP MicroStep.returns := by
  simp only [restOf, Bool.and_eq_true, beq_iff_eq, decide_eq_true_eq, Bool.not_eq_true', List.isEmpty_eq_false_iff]
  constructor
  · rintro ⟨⟨⟨⟨hfin, htodo⟩, hlt⟩, hrest⟩, hgot⟩
    refine ⟨plan.steps.take (plan.steps.length - f.todo.length), ?_, htodo, ?_, hfin, hgot⟩
    · intro he
      have := congrArg List.length he
      simp only [List.length_take, List.length_nil] at this
      omega
    · conv_lhs => rw [← List.take_append_drop (plan.steps.length - f.todo.length) plan.steps]
      rw [← hrest]
  · rintro ⟨taken, htaken, htodo, hsteps, hfin, hgot⟩
    have hpos := List.length_pos_of_ne_nil htaken
    simp [hsteps, hfin, htodo, hgot, hpos]

theorem inFlightOk_iff {p : Params} {c : Caller} {f : InFlight} :
    inFlightOk p c f = true ↔ ∃ cw i plan, c.commands[c.index]? = some cw ∧ decode cw = .ok i ∧
      planOf p i = .ok plan ∧ restOf plan f = true := by
  unfold inFlightOk
  constructor
  · intro h
    split at h
    · cases h
    · rename_i cw hcw
      split at h
      · cases h
      · rename_i i hd
        split at h
        · cases h
        · rename_i plan hp
          exact ⟨cw, i, plan, hcw, hd, hp, h⟩
  · rintro ⟨cw, i, plan, hcw, hd, hp, h⟩
    simp only [hcw, hd, hp, h]

/-- `callerOk`, clause by clause. -/
structure CallerAgrees (s : State) (c : Caller) : Prop where
  results : c.results.length = c.index
  index : c.index ≤ c.commands.length
  inside : ∀ f, c.inFlight = some f → c.halted = none ∧ inFlightOk s.params c f = true
  faulted : ∀ e, c.halted = some (.faulted e) → s.fault.isSome = true ∧ commandFaults s.params c e = true
  refused : ∀ e, c.halted = some (.refused e) → s.refused = true ∧ commandRefused c e = true

theorem callerOk_iff {s : State} {c : Caller} : callerOk s c = true ↔ CallerAgrees s c := by
  simp only [callerOk, Bool.and_eq_true, beq_iff_eq, decide_eq_true_eq]
  constructor
  · rintro ⟨⟨⟨hres, hidx⟩, hin⟩, hhalt⟩
    refine ⟨hres, hidx, fun f hf => ?_, fun e he => ?_, fun e he => ?_⟩
    · simpa [hf] using hin
    · simpa [he] using hhalt
    · simpa [he] using hhalt
  · rintro ⟨hres, hidx, hin, hfaulted, hrefused⟩
    refine ⟨⟨⟨hres, hidx⟩, ?_⟩, ?_⟩
    · split
      · rfl
      · rename_i f hf
        simpa using hin f hf
    · split
      · rfl
      · rename_i e he
        simpa using hfaulted e he
      · rename_i e he
        simpa using hrefused e he

/-- `recordsOk`, clause by clause. -/
structure RecordsAgree (s : State) : Prop where
  callers : ∀ a, agentExists s a = true → CallerAgrees s (callerOf s a)
  fault : ∀ r, s.fault = some r → agentExists s r.agent = true ∧
    (callerOf s r.agent).halted = some (.faulted r.reason) ∧ (callerOf s r.agent).index = r.index
  refused : s.refused = true → ∃ a e, agentExists s a = true ∧ (callerOf s a).halted = some (.refused e)

theorem faultOk_iff {s : State} : faultOk s = true ↔ ∀ r, s.fault = some r → agentExists s r.agent = true ∧
    (callerOf s r.agent).halted = some (.faulted r.reason) ∧ (callerOf s r.agent).index = r.index := by
  unfold faultOk
  cases s.fault with
  | none => simp
  | some r => simp [and_assoc]

theorem refusedOk_iff {s : State} : refusedOk s = true ↔
    (s.refused = true → ∃ a e, agentExists s a = true ∧ (callerOf s a).halted = some (.refused e)) := by
  cases hr : s.refused with
  | false => simp [refusedOk, hr]
  | true =>
    simp only [refusedOk, hr, Bool.not_true, Bool.false_or, List.any_eq_true, mem_agents, forall_const]
    constructor
    · rintro ⟨a, ha, hh⟩
      split at hh
      · rename_i e he
        exact ⟨a, e, ha, he⟩
      · cases hh
      · cases hh
    · rintro ⟨a, e, ha, he⟩
      exact ⟨a, ha, by simp [he]⟩

theorem recordsOk_iff {s : State} : recordsOk s = true ↔ RecordsAgree s := by
  simp only [recordsOk, Bool.and_eq_true, List.all_eq_true, mem_agents, callerOk_iff, faultOk_iff, refusedOk_iff]
  exact ⟨fun ⟨⟨hc, hf⟩, hr⟩ => ⟨hc, hf, hr⟩, fun h => ⟨⟨h.callers, h.fault⟩, h.refused⟩⟩

theorem commandFaults_of {p : Params} {c : Caller} {cw : CmdWord} {i : Instr} {e : FaultReason}
    (hcw : c.commands[c.index]? = some cw) (hd : decode cw = .ok i) (hp : planOf p i = .error e) :
    commandFaults p c e = true := by
  simp [commandFaults, hcw, hd, hp]

theorem commandRefused_of {c : Caller} {cw : CmdWord} {e : CommandRefusal}
    (hcw : c.commands[c.index]? = some cw) (hd : decode cw = .error e) : commandRefused c e = true := by
  simp [commandRefused, hcw, hd]

/-- A record that agrees keeps doing so where the parameters are the same, and FAULT and REFUSED stay set. -/
theorem CallerAgrees.of_sticky {s t : State} {c : Caller} (h : CallerAgrees s c) (hp : t.params = s.params)
    (hf : s.fault.isSome = true → t.fault.isSome = true) (hr : s.refused = true → t.refused = true) :
    CallerAgrees t c where
  results := h.results
  index := h.index
  inside f hi := by rw [hp]; exact h.inside f hi
  faulted e he := ⟨hf (h.faulted e he).1, by rw [hp]; exact (h.faulted e he).2⟩
  refused e he := ⟨hr (h.refused e he).1, (h.refused e he).2⟩

/-- An agent that may move has not stopped and stands at a command of its list. -/
theorem CallerAgrees.running {s : State} {c : Caller} (h : CallerAgrees s c) (he : callerEnabled c = true) :
    c.halted = none ∧ c.index < c.commands.length := by
  simp only [callerEnabled, Bool.and_eq_true, Option.isNone_iff_eq_none, Bool.or_eq_true, Option.isSome_iff_exists,
    decide_eq_true_eq] at he
  obtain ⟨hn, ⟨f, hi⟩ | hlt⟩ := he
  · obtain ⟨cw, -, -, hcw, -⟩ := inFlightOk_iff.1 (h.inside f hi).2
    exact ⟨hn, (List.getElem?_eq_some_iff.1 hcw).1⟩
  · exact ⟨hn, hlt⟩

/-! The invariant along a turn. -/

/-- The records still agree after the record of a running agent is replaced by one that agrees, where FAULT and
REFUSED stay set, and what is new in them is the reason that agent stopped for. -/
theorem RecordsAgree.of_moverBecomes {s t : State} {c : Caller} (h : RecordsAgree s) (hm : MoverBecomes s t c)
    (ha : agentExists s s.mover = true) (hrun : (callerOf s s.mover).halted = none) (hc : CallerAgrees t c)
    (hf : s.fault.isSome = true → t.fault.isSome = true) (hr : s.refused = true → t.refused = true)
    (hfault : ∀ r, t.fault = some r → s.fault = some r ∨
      r.agent = s.mover ∧ c.halted = some (.faulted r.reason) ∧ c.index = r.index)
    (hrefused : t.refused = true → s.refused = true ∨ ∃ e, c.halted = some (.refused e)) : RecordsAgree t where
  callers a hex := by
    by_cases hne : a = s.mover
    · rw [hne, hm.self]; exact hc
    · rw [hm.others a hne]
      exact (h.callers a (by rw [← hm.agents a, hex])).of_sticky hm.params hf hr
  fault r ht := by
    rcases hfault r ht with hs | ⟨hag, hhalt, hidx⟩
    · obtain ⟨hex, hhalt, hidx⟩ := h.fault r hs
      have hne : r.agent ≠ s.mover := fun e => by simp [e, hrun] at hhalt
      rw [hm.agents, hm.others _ hne]
      exact ⟨hex, hhalt, hidx⟩
    · rw [hm.agents, hag, hm.self]
      exact ⟨ha, hhalt, hidx⟩
  refused ht := by
    rcases hrefused ht with hs | ⟨e, hhalt⟩
    · obtain ⟨a, e, hex, hhalt⟩ := h.refused hs
      have hne : a ≠ s.mover := fun he => by simp [he, hrun] at hhalt
      exact ⟨a, e, by rw [hm.agents, hex], by rw [hm.others _ hne, hhalt]⟩
    · exact ⟨s.mover, e, by rw [hm.agents, ha], by rw [hm.self, hhalt]⟩

/-- The case where FAULT and REFUSED are as before. -/
theorem RecordsAgree.of_same_failures {s t : State} {c : Caller} (h : RecordsAgree s) (hm : MoverBecomes s t c)
    (ha : agentExists s s.mover = true) (hrun : (callerOf s s.mover).halted = none) (hc : CallerAgrees s c)
    (hf : t.fault = s.fault) (hr : t.refused = s.refused) : RecordsAgree t :=
  h.of_moverBecomes hm ha hrun (hc.of_sticky hm.params (by rw [hf]; exact id) (by rw [hr]; exact id))
    (by rw [hf]; exact id) (by rw [hr]; exact id) (fun _ ht => .inl (hf ▸ ht)) (fun ht => .inl (hr ▸ ht))

/-- A micro-step returns one value exactly where it is a read or a call. -/
theorem perform_got_length {m : MicroStep} {got got' : List Word} {s t : State}
    (h : perform m got s = .next (got', t)) :
    got'.length = got.length + if m.returns then 1 else 0 := by
  cases m with
  | read r =>
    obtain ⟨x, -, hx⟩ := andThen_next h
    cases hx
    simp [MicroStep.returns]
  | write r v | writeBack r k en =>
    obtain ⟨u, -, hx⟩ := andThen_next h
    cases hx
    simp [MicroStep.returns]
  | call q n en => cases h; simp [MicroStep.returns]

/-- One more micro-step taken, and one still left. -/
theorem restOf_of_perform {plan : Plan} {taken : List MicroStep} {m : MicroStep} {ms : List MicroStep}
    {got got' : List Word} {s t : State} (hsteps : plan.steps = taken ++ m :: ms) (hms : ms ≠ [])
    (hgot : got.length = taken.countP MicroStep.returns) (hp : perform m got s = .next (got', t)) :
    restOf plan ⟨ms, plan.finish, got'⟩ = true :=
  restOf_iff.2 ⟨taken ++ [m], by simp, hms, by simp [hsteps], rfl, by
    simp [perform_got_length hp, hgot, List.countP_cons]⟩

theorem CallerAgrees.completed {s : State} {c : Caller} (h : CallerAgrees s c) (hrun : c.halted = none)
    (hlt : c.index < c.commands.length) (r : Result) : CallerAgrees s (completed c r) where
  results := by simp [Machine.completed, h.results]
  index := hlt
  inside f hf := by cases hf
  faulted e he := by simp [Machine.completed, hrun] at he
  refused e he := by simp [Machine.completed, hrun] at he

theorem CallerAgrees.enter {s : State} {c : Caller} (h : CallerAgrees s c) (hrun : c.halted = none)
    {f : InFlight} (hf : inFlightOk s.params { c with inFlight := some f } f = true) :
    CallerAgrees s { c with inFlight := some f } where
  results := h.results
  index := h.index
  inside g hg := by cases hg; exact ⟨hrun, hf⟩
  faulted := h.faulted
  refused := h.refused

theorem CallerAgrees.stop_refused {s t : State} {c : Caller} {cw : CmdWord} {e : CommandRefusal}
    (h : CallerAgrees s c) (hn : c.inFlight = none) (hr : t.refused = true)
    (hcw : c.commands[c.index]? = some cw) (hd : decode cw = .error e) :
    CallerAgrees t { c with halted := some (.refused e) } where
  results := h.results
  index := h.index
  inside f hf := by simp [hn] at hf
  faulted e' he := by cases he
  refused e' he := by cases he; exact ⟨hr, commandRefused_of hcw hd⟩

theorem CallerAgrees.stop_faulted {s t : State} {c : Caller} {cw : CmdWord} {i : Instr} {e : FaultReason}
    (h : CallerAgrees s c) (hn : c.inFlight = none) (hf : t.fault.isSome = true)
    (hcw : c.commands[c.index]? = some cw) (hd : decode cw = .ok i) (hp : planOf t.params i = .error e) :
    CallerAgrees t { c with halted := some (.faulted e) } where
  results := h.results
  index := h.index
  inside f hf := by simp [hn] at hf
  faulted e' he := by cases he; exact ⟨hf, commandFaults_of hcw hd hp⟩
  refused e' he := by cases he

/-- A turn of an agent that may move keeps the records in agreement. -/
theorem RecordsAgree.of_turnEffect {s t : State} (h : RecordsAgree s) (hen : enabled s s.mover = true)
    (ht : TurnEffect s t) : RecordsAgree t := by
  obtain ⟨ha, hce⟩ := Bool.and_eq_true_iff.1 hen
  have hc := h.callers _ ha
  obtain ⟨hrun, hlt⟩ := hc.running hce
  cases ht with
  | idle he => rw [he]; exact h
  | refused cw e hn hf hd he =>
    subst he
    exact h.of_moverBecomes (refuseCommand_moverBecomes ha e) ha hrun (hc.stop_refused hn (by simp) hf hd) (by simp)
      (by simp) (fun r hr => .inl (by simpa using hr)) (fun _ => .inr ⟨e, rfl⟩)
  | faulted cw i e hn hf hd hp he =>
    subst he
    have hc' := hc.stop_faulted (t := raiseFault e s) hn (by simp) hf hd (by simpa using hp)
    refine h.of_moverBecomes (raiseFault_moverBecomes ha e) ha hrun hc' (by simp) (by simp) (fun r hr => ?_)
      (fun hr => .inl (by simpa using hr))
    cases hs : s.fault with
    | some r' => exact .inl (by simpa [hs] using hr)
    | none =>
      have hr : (⟨e, s.mover, (callerOf s s.mover).index⟩ : FaultRecord) = r := by simpa [hs] using hr
      subst hr
      exact .inr ⟨rfl, rfl, rfl⟩
  | completed u r hk he =>
    subst he
    exact h.of_same_failures (complete_moverBecomes hk ha r) ha hrun (hc.completed hrun hlt r)
      (by simp [hk.fault]) (by simp [hk.refused])
  | further f m ms got u hi htodo hms hp hk he =>
    subst he
    obtain ⟨cw, i, plan, hcw, hd, hplan, hrest⟩ := inFlightOk_iff.1 (hc.inside f hi).2
    obtain ⟨taken, -, -, hsteps, hfin, hgot⟩ := restOf_iff.1 hrest
    rw [htodo] at hsteps
    refine h.of_same_failures (setInFlight_moverBecomes hk ha _) ha hrun (hc.enter hrun ?_) (by simp [hk.fault])
      (by simp [hk.refused])
    exact inFlightOk_iff.2 ⟨cw, i, plan, hcw, hd, hplan, hfin ▸ restOf_of_perform hsteps hms hgot hp⟩
  | entered cw i plan m ms got u hn hf hd hplan hsteps hms hp hk he =>
    subst he
    refine h.of_same_failures (setInFlight_moverBecomes hk ha _) ha hrun (hc.enter hrun ?_) (by simp [hk.fault])
      (by simp [hk.refused])
    exact inFlightOk_iff.2 ⟨cw, i, plan, hf, hd, hplan,
      restOf_of_perform (taken := []) hsteps hms rfl hp⟩

/-- Settles O51, by the effect of the turn: each kind of turn writes one record, and one that agrees. -/
theorem stepKeepsRecords : Obligations.StepKeepsRecords := by
  intro s t hs h
  rcases step_turn h with rfl | ⟨tn, s', hr, ht⟩
  · exact hs
  · have hs' : RecordsAgree s' := recordsOk_iff.1 (hr.recordsOk.trans hs)
    exact recordsOk_iff.2 (hs'.of_turnEffect hr.ready (takeTurn_effect ht))

/-! The micro-steps left are those of a plan, so they are legal and confined to bonded pins. -/

theorem pending_mem_plan {s : State} (h : CallerAgrees s (callerOf s s.mover)) {m : MicroStep}
    (hm : Pending s m) : ∃ i plan, planOf s.params i = .ok plan ∧ m ∈ plan.steps := by
  cases hm with
  | inside f hi hm =>
    obtain ⟨cw, i, plan, -, -, hp, hrest⟩ := inFlightOk_iff.1 (h.inside f hi).2
    obtain ⟨taken, -, -, hsteps, -, -⟩ := restOf_iff.1 hrest
    exact ⟨i, plan, hp, by rw [hsteps]; exact List.mem_append_right taken hm⟩
  | fresh cw i plan hf hd hp hm => exact ⟨i, plan, hp, hm⟩

/-- Bonded out (R34). -/
def Bonded (p : Params) (n : Pin) : Prop := p.bonded.get n = true

/-- Bonded out, and with an IO_MUX register (R32). -/
def BondedMapped (p : Params) (n : Pin) : Prop := Bonded p n ∧ isMapped p n = true

/-- A step changes registers of bonded pins only, and IO_MUX and IN_HOLD of bonded, mapped pins only. -/
theorem step_changesOnly {s t : State} (hs : recordsOk s = true) (h : step s = .next t) :
    ChangesOnly (Bonded s.params) (BondedMapped s.params) s t := by
  rcases step_turn h with rfl | ⟨tn, s', hr, ht⟩
  · exact .refl _ _ _
  · have hc := (recordsOk_iff.1 (hr.recordsOk.trans hs)).callers _ hr.agentExists
    have hconf (m : MicroStep) (hm : Pending s' m) :
        Confined (Bonded s.params) (BondedMapped s.params) m := by
      obtain ⟨i, plan, hp, hmem⟩ := pending_mem_plan hc hm
      rw [hr.params] at hp
      exact (planOf_confined hp m hmem).mono (fun _ hn => hn.2) (fun _ ⟨hn, _, hmap⟩ => ⟨hn.2, hmap⟩)
    obtain ⟨u, hrun, hu⟩ := takeTurn_microRun ht
    exact ((hr.changesOnly _ _).trans (microRun_changesOnly hconf hrun)).trans (hu.changesOnly _ _)

/-- Settles O54: a bonded pin resolves to no bit of a pin that is not bonded (R87, R88). -/
theorem unreachablePinsAreKept : Obligations.UnreachablePinsAreKept := by
  intro s t hs h n
  have hch := step_changesOnly hs h
  refine ⟨fun hb => ?_, fun hu => ?_⟩
  · have hn : ¬ Bonded s.params n := by simp [Bonded, hb]
    have hbit (m : Pin) (hm : Bonded s.params m) (hbank : bankOf m = bankOf n) : (bitOf m).val ≠ (bitOf n).val :=
      fun hk => hn (resolve_injective hbank (Fin.ext hk) ▸ hm)
    exact ⟨hch.out _ _ hbit, hch.enable _ _ hbit, hch.pinConfig n hn, hch.funcSel n hn⟩
  · have hn : ¬ BondedMapped s.params n := by
      rintro ⟨hb, hm⟩
      rcases hu with hu | hu
      · simp [Bonded, hu] at hb
      · simp [isMapped, hu] at hm
    exact ⟨hch.ioMux n hn, hch.inHold n hn⟩

/-- Settles O53: a pin of the high bank resolves to a bit below 8 (R88). -/
theorem reservedBitsAreNeverWritten : Obligations.ReservedBitsAreNeverWritten := by
  intro s t hs h k hk
  have hch := step_changesOnly hs h
  have hbit (m : Pin) (_ : Bonded s.params m) (hbank : bankOf m = .hi) : (bitOf m).val ≠ k := by
    have := bitOf_lt_eight hbank
    omega
  exact ⟨hch.out .hi k hbit, hch.enable .hi k hbit⟩

/-! Every turn answers (R48, R50, R135). -/

theorem advance_answers {f : InFlight} {s : State} (h : ∀ m ∈ f.todo, stepLegal s.params m = true) :
    ∃ t, advance f s = .next t := by
  unfold advance
  split
  · exact ⟨_, rfl⟩
  · rename_i m ms hf
    obtain ⟨got, u, hp, -⟩ := perform_answers (h m (by simp [hf])) f.got
    rw [hp, andThen_of_next]
    split
    · exact ⟨_, rfl⟩
    · exact ⟨_, rfl⟩

theorem runSteps_answers_next {f : Finish} {ms : List MicroStep} {s : State}
    (h : ∀ m ∈ ms, stepLegal s.params m = true) (got : List Word) : ∃ t, runSteps f ms got s = .next t := by
  obtain ⟨u, got', -, he⟩ := runSteps_answers (f := f) (List.all_eq_true.2 h) got
  exact ⟨_, he⟩

/-- The checks of an operation come before its micro-steps, and those are legal. -/
theorem planOf_steps_legal {p : Params} {i : Instr} {plan : Plan} (h : planOf p i = .ok plan) :
    ∀ m ∈ plan.steps, stepLegal p m = true :=
  List.all_eq_true.1 (planOf_legal h).1

theorem startOperation_answers (i : Instr) (s : State) : ∃ t, startOperation (planOf s.params i) s = .next t := by
  cases hp : planOf s.params i with
  | error e => exact ⟨_, rfl⟩
  | ok plan => exact advance_answers (f := ⟨plan.steps, plan.finish, []⟩) (planOf_steps_legal hp)

theorem exec_answers (i : Instr) (s : State) : ∃ t, exec i s = .next t := by
  rw [exec_eq_operate]
  cases hp : planOf s.params i with
  | error e => exact ⟨_, rfl⟩
  | ok plan => exact runSteps_answers_next (planOf_steps_legal hp) []

theorem takeTurn_answers {s : State} (hc : CallerAgrees s (callerOf s s.mover)) (tn : Turn) :
    ∃ t, takeTurn tn s = .next t := by
  have hlegal (f : InFlight) (hi : (callerOf s s.mover).inFlight = some f) (m : MicroStep) (hm : m ∈ f.todo) :
      stepLegal s.params m = true := by
    obtain ⟨i, plan, hp, hmem⟩ := pending_mem_plan hc (.inside f hi hm)
    exact planOf_steps_legal hp m hmem
  cases tn with
  | microStep a =>
    simp only [takeTurn, runMicroStep]
    split
    · rename_i f hi
      exact advance_answers (hlegal f hi)
    · split
      · exact ⟨_, rfl⟩
      · split
        · exact ⟨_, rfl⟩
        · exact startOperation_answers _ s
  | operation a =>
    simp only [takeTurn, runOperation]
    split
    · rename_i f hi
      exact runSteps_answers_next (hlegal f hi) f.got
    · split
      · exact ⟨_, rfl⟩
      · split
        · exact ⟨_, rfl⟩
        · exact exec_answers _ s

/-- A caller that may not move, with FAULT empty and REFUSED false, has completed its list. -/
theorem CallerAgrees.done {s : State} {c : Caller} (h : CallerAgrees s c) (hen : callerEnabled c = false)
    (hf : s.fault = none) (hr : s.refused = false) : callerDone c = true := by
  have hhalt : c.halted = none := by
    rcases hh : c.halted with _ | (e | e)
    · rfl
    · simpa [hf] using (h.faulted e hh).1
    · simpa [hr] using (h.refused e hh).1
  simpa [callerEnabled, callerDone, hhalt] using hen

/-- A run without failure and with no agent to move has ended (R69). -/
theorem ended_of_no_failure {s : State} (h : RecordsAgree s) (hen : enabledAgents s = []) (hf : s.fault = none)
    (hr : s.refused = false) : ended s = true := by
  have hdone (a : Agent) (ha : a ∈ agents s) : callerDone (callerOf s a) = true := by
    have hex := mem_agents.1 ha
    have hna : enabled s a = false := by
      rw [← Bool.not_eq_true, ← mem_enabledAgents, hen]
      exact List.not_mem_nil
    exact (h.callers a hex).done (by simpa [enabled, hex] using hna) hf hr
  simpa [ended, hf, hr] using hdone

/-- Under admitted parameters a step answers a next state, or no agent may move and the run has failed. -/
theorem step_answers_or_failed {s : State} (hs : RecordsAgree s) (hw : s.params.wellFormed = true) :
    (∃ t, step s = .next t) ∨ enabledAgents s = [] ∧
      ((∃ r, s.fault = some r ∧ step s = .fault (.failedRun r)) ∨
        s.fault = none ∧ s.refused = true ∧ step s = .refused .failedByRefusal) := by
  cases hn : nextTurn s with
  | some x =>
    obtain ⟨tn, s'⟩ := x
    have hr := nextTurn_readied hn
    have hs' := recordsOk_iff.1 (hr.recordsOk.trans (recordsOk_iff.2 hs))
    obtain ⟨t, ht⟩ := takeTurn_answers (hs'.callers _ hr.agentExists) tn
    exact .inl ⟨t, by simp [step, hw, hn, ht]⟩
  | none =>
    have hen := nextTurn_none.1 hn
    cases he : ended s with
    | true => exact .inl ⟨s, by simp [step, hw, hn, stopped, he]⟩
    | false =>
      refine .inr ⟨hen, ?_⟩
      cases hf : s.fault with
      | some r => exact .inl ⟨r, rfl, by simp [step, hw, hn, stopped, he, hf]⟩
      | none =>
        have hr : s.refused = true := by
          by_contra hr
          simp [ended_of_no_failure hs hen hf (Bool.eq_false_iff.2 hr)] at he
        exact .inr ⟨rfl, hr, by simp [step, hw, hn, stopped, he, hf]⟩

/-- Settles O52: every turn of an agent that may move answers, so a step stops only where no agent may move. -/
theorem onlyFailedRunsStop : Obligations.OnlyFailedRunsStop := by
  intro s hs hw
  rcases step_answers_or_failed (recordsOk_iff.1 hs) hw with
    ⟨t, ht⟩ | ⟨hen, ⟨r, hf, ht⟩ | ⟨hf, hr, ht⟩⟩ <;> rw [ht]
  · exact ⟨nofun, nofun⟩
  · refine ⟨fun e he => ?_, nofun⟩
    cases he
    exact ⟨r, rfl, hf, hen⟩
  · refine ⟨nofun, fun e he => ?_⟩
    cases he
    exact ⟨rfl, hf, hr, hen⟩

/-! The histories (R37, R38, R39). -/

/-- Settles O10. -/
theorem completionAppendsResult : Obligations.CompletionAppendsResult := by
  intro r s ha
  have hm := complete_moverBecomes (.refl s) ha r
  exact ⟨hm.self, hm.others, setCaller_eq s s.mover _⟩

/-- Settles O39: only a turn that raises a fault writes FAULT, and only where it is empty. -/
theorem faultRecordIsSticky : Obligations.FaultRecordIsSticky := by
  refine ⟨fun _ _ _ _ => ⟨rfl, rfl⟩, fun s t h => ?_⟩
  rcases step_turn h with rfl | ⟨tn, s', hr, ht⟩
  · exact ⟨id, fun _ => id, fun r hn hs => by simp [hn] at hs⟩
  · have he := takeTurn_effect ht
    obtain ⟨c, hm, -⟩ := turnEffect_moverBecomes he hr.agentExists
    refine ⟨fun h => turnEffect_refused he (hr.refused.trans h),
      fun r h => turnEffect_keeps_fault he (hr.fault.trans h), fun r hn hs => ?_⟩
    obtain ⟨hag, hidx, hhalt⟩ := turnEffect_new_fault he hr.agentExists (hr.fault.trans hn) hs
    rw [hag, hm.mover, ← hr.callerOf]
    exact ⟨rfl, hidx, hhalt⟩

/-- Settles O44: a turn logs calls of its own agent, and writes that agent's record only. -/
theorem stepExtendsHistories : Obligations.StepExtendsHistories := by
  intro s t h
  rcases step_turn h with rfl | ⟨tn, s', hr, ht⟩
  · exact ⟨⟨[], by simp, by simp⟩, fun _ _ => rfl, fun _ => ⟨[], by simp, by simp⟩⟩
  · obtain ⟨hmov, es, hlog, hes⟩ := takeTurn_logs ht
    obtain ⟨c, hm, rs, hrs, hlen⟩ := turnEffect_moverBecomes (takeTurn_effect ht) hr.agentExists
    have hothers (a : Agent) (hne : a ≠ s'.mover) : callerOf t a = callerOf s a :=
      (hm.others a hne).trans (hr.callerOf a)
    rw [hmov]
    refine ⟨⟨es, by rw [hlog, hr.lpLog], hes⟩, hothers, fun a => ?_⟩
    by_cases hne : a = s'.mover
    · exact ⟨rs, by rw [hne, hm.self, hrs, hr.callerOf], hlen⟩
    · exact ⟨[], by rw [hothers a hne, List.append_nil], by simp⟩

/-! A disabled input (R35, R49, R119). -/

/-- GET_LEVEL of a bonded pin returns the pin's bit of a read of its bank's IN (R119). -/
theorem exec_getLevel {s : State} {n : Pin} (hb : s.params.bonded.get n = true) :
    exec (.getLevel n.val) s = .next (complete (.bit (inputBitAt s (bankOf n) (bitOf n))) (drawn s)) := by
  have hplan : planOf s.params (.getLevel n.val) =
      .ok { steps := [.read (.input (bankOf n))], finish := .inputBit (bitOf n) } := by
    simp only [planOf, planGetLevel, checkPin_ok hb]
  rw [exec_eq_operate, hplan]
  simp [operate, runSteps, perform, finishResult]

/-- The IN bit of a disabled input is the pin's held bit (R35, R49). -/
theorem inputBitAt_disabled {s : State} {n : Pin} (hb : s.params.bonded.get n = true)
    (hm : isMapped s.params n = true) (hie : inputEnabled s n = false) :
    inputBitAt s (bankOf n) (bitOf n) = s.inHold.get n := by
  simp [inputBitAt, hasInput, hb, hm, hie]

/-- Settles O36: GET_LEVEL samples the held bit, and only an IO_MUX-touching operation on the pin writes it. -/
theorem disabledInputIsStable : Obligations.DisabledInputIsStable := by
  intro s n ha hb hm hie
  refine ⟨⟨_, exec_getLevel hb, ?_⟩, fun i t hi h => ?_⟩
  · have hk : KeepsRecords s (drawn s) := ⟨rfl, [], by simp⟩
    rw [(complete_moverBecomes hk ha _).self, inputBitAt_disabled hb hm hie]
    rfl
  · have hn : ¬ OnMuxPin s.params i n := by
      rintro ⟨⟨hpin, -⟩, ht, -⟩
      rcases hi with hi | hi
      · exact hi hpin
      · simp [hi] at ht
    exact ⟨(exec_changesOnly h).inHold n hn, (exec_changesOnly h).ioMux n hn⟩

end Sys2Proof.Proofs.MachineState
end

section
/-! The memory family (20_memory.md): what each register's read and write does, how a turn runs a command, whole
operations against their micro-steps, interleavings of two agents, and where runs stop. -/

namespace Sys2Proof.Proofs.Memory

open Sys2Proof Sys2Proof.Machine Sys2Proof.Proofs.MachineState

/-! Register writes (R45 to R47, R50). -/

/-- Settles O12: each port is one bitwise operation on its bank's value. -/
theorem portsSetAndClearBits : Obligations.PortsSetAndClearBits := by
  intro s b c v
  have hor (x : Banked Word) (k : Nat) : (bankGet (bankSet x b (bankGet x b ||| v)) c).getLsbD k =
      ((bankGet x c).getLsbD k || (decide (c = b) && v.getLsbD k)) := by
    by_cases hbc : b = c
    · subst hbc; simp
    · simp [hbc, Ne.symm hbc]
  have hclear (x : Banked Word) (k : Nat) : (bankGet (bankSet x b (bankGet x b &&& ~~~v)) c).getLsbD k =
      ((bankGet x c).getLsbD k && !(decide (c = b) && v.getLsbD k)) := by
    by_cases hbc : b = c
    · subst hbc
      have hlt : (bankGet x b).getLsbD k = true → k < 32 := BitVec.lt_of_getLsbD
      cases hk : (bankGet x b).getLsbD k <;> simp_all
    · simp [hbc, Ne.symm hbc]
  exact ⟨⟨_, writeReg_outSet b v s, rfl, hor s.out⟩, ⟨_, writeReg_outClear b v s, rfl, hclear s.out⟩,
    ⟨_, writeReg_enableSet b v s, rfl, hor s.enable⟩, ⟨_, writeReg_enableClear b v s, rfl, hclear s.enable⟩⟩

/-- A read of OUT or ENABLE returns the bank's stored bits: all 32 of the low bank, and those that stand for pins of
the high bank (R33, R45). -/
theorem readStored_getLsbD (x : Banked Word) (b : Bank) (s : State) (k : Nat)
    (hk : k < if b = .lo then 32 else 8) : (readStored x b s).getLsbD k = (bankGet x b).getLsbD k := by
  cases b with
  | lo => rfl
  | hi =>
    have hk : k < 8 := hk
    have hbit := withReserved_getLsbD x.hi (Config.anyWord s.draws) ⟨k, by omega⟩
    rwa [if_pos hk] at hbit

theorem readReg_funcSel (n : Pin) (s : State) : readReg (.funcSel n) s = .next (s.funcSel.get n, s) := rfl

/-- Settles O13: a read after the write finds the value the write stored. -/
theorem storageReadsBack : Obligations.StorageReadsBack := by
  have hstored (x : Banked Word) (b : Bank) (v : Word) (s : State) (k : Nat) (hk : k < if b = .lo then 32 else 8) :
      (readStored (bankSet x b v) b s).getLsbD k = v.getLsbD k := by
    rw [readStored_getLsbD _ b s k hk, bankGet_bankSet, if_pos rfl]
  have hput (x : PinTable Word) (n : Pin) (v : Word) : (putPin x n v).get n = v := by rw [get_putPin, if_pos rfl]
  intro s v
  refine ⟨fun b => ⟨_, _, _, rfl, rfl, hstored s.out b v _, rfl⟩,
    fun b => ⟨_, _, _, rfl, rfl, hstored s.enable b v _, rfl⟩, fun n => ?_, fun n => ?_, fun n hm => ?_⟩
  · exact ⟨_, _, writeReg_pinConfig n v s, by rw [readReg_pinConfig, hput], rfl⟩
  · exact ⟨_, _, writeReg_funcSel n v s, by rw [readReg_funcSel, hput], rfl⟩
  · exact ⟨_, _, writeReg_ioMux hm v, by rw [readReg_ioMux (s := writeIoMux n v s) hm, writeIoMux_ioMux, hput], rfl⟩

/-- The pin of bit i of the low bank is i, of the high bank 32 + i, where there is such a pin (R24). -/
theorem pinAt_eq (b : Bank) (i : BitIndex) :
    pinAt b i = if h : (if b = .lo then i.val else 32 + i.val) < 40 then some ⟨_, h⟩ else none := by
  cases b with
  | lo =>
    have hi : i.val < 40 := by omega
    simp [pinAt, hi]
  | hi => rfl

/-- Settles O14, by the pin of the bit: none, one without an input, one enabled, one disabled. -/
theorem inputReadSamplesPads : Obligations.InputReadSamplesPads := by
  refine fun s b => ⟨_, readReg_input b s, fun i => ?_⟩
  rw [inputWord_getLsbD, inputBitAt, pinAt_eq]
  by_cases hp : (if b = .lo then i.val else 32 + i.val) < 40
  · simp only [hp, dif_pos, hasInput, isMapped, inputEnabled, Bool.and_eq_true, Option.isSome_iff_ne_none]
    rfl
  · simp only [hp, dif_neg, not_false_eq_true]

/-- Settles O15. -/
theorem absentAccessesAreTurnedAway : Obligations.AbsentAccessesAreTurnedAway := by
  refine fun s b v => ⟨rfl, rfl, rfl, rfl, rfl, fun n hn => ?_⟩
  have hm : isMapped s.params n = false := by simp [isMapped, hn]
  simp [readReg, writeReg, hm]

/-- A write repeated changes at most IN_HOLD and the draw counter: it sets, clears or stores bits that are so
already (R60). -/
theorem writeReg_again {r : Reg} {v : Word} {s t : State} (h : writeReg r v s = .next t) :
    ∃ u, writeReg r v t = .next u ∧ u = { t with inHold := u.inHold, draws := u.draws } := by
  cases r with
  | input b => cases h
  | ioMux n =>
    have hm : isMapped s.params n = true := by
      by_contra hm
      simp [writeReg, hm] at h
    rw [writeReg_ioMux hm] at h
    cases h
    exact ⟨writeIoMux n v (writeIoMux n v s), writeReg_ioMux (s := writeIoMux n v s) hm v, by simp [writeIoMux, drawn]⟩
  | outClear b | enableClear b =>
    cases h
    refine ⟨_, rfl, ?_⟩
    simp [BitVec.and_assoc]
  | out b | outSet b | enable b | enableSet b | pinConfig n | funcSel n =>
    cases h
    refine ⟨_, rfl, ?_⟩
    simp [BitVec.or_assoc]

/-- Settles O16: IN_HOLD and the draw counter are no part of the observation (R68). -/
theorem repeatedWriteIsIdempotent : Obligations.RepeatedWriteIsIdempotent := by
  intro r v s t h
  obtain ⟨u, hu, he⟩ := writeReg_again h
  exact ⟨u, hu, by rw [he]; rfl⟩

/-! The next turn and the command it runs (R56, R65). -/

/-- Settles O42. -/
theorem nextTurnIsOfAnEnabledAgent : Obligations.NextTurnIsOfAnEnabledAgent := by
  refine ⟨fun s s' t => nextTurn_some, fun s t ts => nextTurn_scheduled, fun s a ha hn => ?_⟩
  have hmem := mem_enabledAgents.2 ha
  rw [nextTurn_none.1 hn] at hmem
  exact List.not_mem_nil hmem

/-- An agent that may move, is inside no operation, and whose next command is i (R65). -/
structure AtCommand (s : State) (a : Agent) (i : Instr) : Prop where
  ready : enabled s a = true
  outside : (callerOf s a).inFlight = none
  command : ∃ cw, (callerOf s a).commands[(callerOf s a).index]? = some cw ∧ decode cw = .ok i

/-- An agent that may move and is inside the operation f (R56). -/
structure Inside (s : State) (a : Agent) (f : InFlight) : Prop where
  ready : enabled s a = true
  inside : (callerOf s a).inFlight = some f

/-- An agent with a command to run may move. -/
theorem enabled_of_command {s : State} {a : Agent} {cw : CmdWord} (ha : agentExists s a = true)
    (hh : (callerOf s a).halted = none) (hc : (callerOf s a).commands[(callerOf s a).index]? = some cw) :
    enabled s a = true := by
  have hlt := (List.getElem?_eq_some_iff.1 hc).1
  simp [enabled, callerEnabled, ha, hh, hlt]

/-- An agent that may move and is inside no operation has a command word to run. -/
theorem exists_command {s : State} {a : Agent} (he : enabled s a = true) (hn : (callerOf s a).inFlight = none) :
    ∃ cw, (callerOf s a).commands[(callerOf s a).index]? = some cw := by
  simp only [enabled, callerEnabled, hn, Bool.and_eq_true, Option.isSome_none, Bool.false_or, decide_eq_true_eq] at he
  obtain ⟨-, -, hlt⟩ := he
  exact ⟨_, List.getElem?_eq_getElem hlt⟩

/-! A turn of the moving agent, by what the agent is about to do. -/

theorem runMicroStep_of_inside {s : State} {f : InFlight} (h : Inside s s.mover f) : runMicroStep s = advance f s := by
  simp only [runMicroStep, h.inside]

theorem runOperation_of_inside {s : State} {f : InFlight} (h : Inside s s.mover f) :
    runOperation s = runSteps f.finish f.todo f.got s := by
  simp only [runOperation, h.inside]

theorem runMicroStep_of_atCommand {s : State} {i : Instr} (h : AtCommand s s.mover i) :
    runMicroStep s = startOperation (planOf s.params i) s := by
  obtain ⟨cw, hcw, hd⟩ := h.command
  simp only [runMicroStep, h.outside, fetch, hcw, hd]

theorem runOperation_of_atCommand {s : State} {i : Instr} (h : AtCommand s s.mover i) :
    runOperation s = exec i s := by
  obtain ⟨cw, hcw, hd⟩ := h.command
  simp only [runOperation, h.outside, fetch, hcw, hd]

/-- A refused command word takes no micro-step, so both kinds of turn refuse it (R141). -/
theorem takeTurn_of_refused {s : State} {cw : CmdWord} {e : CommandRefusal} (tn : Turn)
    (hn : (callerOf s s.mover).inFlight = none) (hf : fetch s = some cw) (hd : decode cw = .error e) :
    takeTurn tn s = .next (refuseCommand e s) := by
  cases tn <;> simp only [takeTurn, runMicroStep, runOperation, hn, hf, hd]

/-! The load from outside. -/

/-- The placed word is the caller's next command. -/
theorem placeCommand_command (w : CmdWord) (c : Caller) :
    (placeCommand w c).commands[(placeCommand w c).index]? = some w := by
  simp [placeCommand]

theorem decode_of_decodeTableWord {w : Nat} {i : Instr} (h : decodeTableWord 16 w = some i) :
    decode (BitVec.ofNat 16 (w % 2 ^ 16)) = .ok i := by
  simp only [decodeTableWord, Nat.mod_lt w (Nat.two_pow_pos 16), if_true] at h
  split at h
  · rename_i j hj
    cases h
    exact hj
  · cases h

/-- The machine that `ownerNext` makes takes OWNER's whole operation next. -/
theorem nextTurn_ownerNext {s : State} (h : enabled s .owner = true) :
    ∃ s', nextTurn (ownerNext s) = some (.operation .owner, s') := by
  unfold ownerNext
  split
  · rename_i hc
    obtain ⟨hs, he⟩ := hc
    exact ⟨{ s with schedule := [], mover := .owner }, by simp [nextTurn, hs, firstTurn, he]⟩
  · exact ⟨_, nextTurn_scheduled rfl h⟩

theorem callerOf_ownerNext (s : State) (a : Agent) : callerOf (ownerNext s) a = callerOf s a := by
  unfold ownerNext
  split <;> rfl

theorem ownerNext_params (s : State) : (ownerNext s).params = s.params := by
  unfold ownerNext
  split <;> rfl

/-- Where the next turn is a whole operation of an agent at a command, the step runs that command. -/
theorem step_runs_command {s s' : State} {a : Agent} {cw : CmdWord} {i : Instr} (hw : s.params.wellFormed = true)
    (ht : nextTurn s = some (.operation a, s')) (hn : (callerOf s a).inFlight = none)
    (hcw : (callerOf s a).commands[(callerOf s a).index]? = some cw) (hd : decode cw = .ok i) :
    step s = exec i s' ∧ s' = { s with schedule := s'.schedule, mover := a, draws := s'.draws } := by
  have hs' : s' = { s with schedule := s'.schedule, mover := a, draws := s'.draws } := (nextTurn_some ht).2
  have hr := nextTurn_readied ht
  have hm : s'.mover = a := by rw [hs']
  have hat : AtCommand s' s'.mover i :=
    ⟨hr.ready, by rw [hr.callerOf, hm, hn], cw, by rw [hr.callerOf, hm, hcw], hd⟩
  refine ⟨?_, hs'⟩
  calc step s = runOperation s' := by simp [step, hw, ht, takeTurn]
    _ = exec i s' := runOperation_of_atCommand hat

/-- Settles O41. -/
theorem stepRunsDecodedOperation : Obligations.StepRunsDecodedOperation := by
  refine ⟨fun s s' a cw i hw ht hn hcw hd => step_runs_command hw ht hn hcw hd, fun s w i hw _ hdec => ?_⟩
  have hcmd := placeCommand_command (BitVec.ofNat 16 (w % 2 ^ 16)) s.owner
  obtain ⟨s', ht⟩ := nextTurn_ownerNext
    (enabled_of_command (s := { s with owner := placeCommand (BitVec.ofNat 16 (w % 2 ^ 16)) s.owner }) (a := .owner)
      rfl rfl hcmd)
  obtain ⟨hstep, hs'⟩ := step_runs_command (s := s.withFetchWord 16 w) (i := i)
    (by rw [State.withFetchWord, ownerNext_params]; exact hw) ht
    (by rw [State.withFetchWord, callerOf_ownerNext]; rfl)
    (by rw [State.withFetchWord, callerOf_ownerNext]; exact hcmd)
    (decode_of_decodeTableWord hdec)
  exact ⟨s', ht, hstep, by rw [hs']⟩

/-! Where runs stop (R69, R137, R141). -/

/-- Under admitted parameters, a step where no agent may move. -/
theorem step_eq_stopped {s : State} (hw : s.params.wellFormed = true) (hen : enabledAgents s = []) :
    step s = stopped s := by
  simp [step, hw, nextTurn_none.2 hen]

theorem ended_no_failure {s : State} (h : ended s = true) : s.fault = none ∧ s.refused = false := by
  simp only [ended, Bool.and_eq_true, Option.isNone_iff_eq_none, Bool.not_eq_true'] at h
  obtain ⟨⟨-, hf⟩, hr⟩ := h
  exact ⟨hf, hr⟩

/-- Settles O49: where the records agree, an agent that may not move stopped for a failure or completed its list. -/
theorem runsEndOrFail : Obligations.RunsEndOrFail := by
  intro s hs hw hen
  have hiff : ended s = true ↔ s.fault = none ∧ s.refused = false :=
    ⟨ended_no_failure, fun ⟨hf, hr⟩ => ended_of_no_failure (recordsOk_iff.1 hs) hen hf hr⟩
  rw [step_eq_stopped hw hen]
  refine ⟨hiff, fun he => by rw [stopped, if_pos he], fun r hf => ?_, fun hf hr => ?_⟩
  · have hne : ¬ ended s = true := fun he => by simpa [hf] using (hiff.1 he).1
    rw [stopped, if_neg hne, hf]
  · have hne : ¬ ended s = true := fun he => by simpa [hr] using (hiff.1 he).2
    rw [stopped, if_neg hne, hf]

/-! Every turn uses up work (R170, R171), so every run comes to rest. -/

/-- The moving agent's record becomes one with less work left. -/
def UsesWork (s t : State) : Prop :=
  ∃ c, MoverBecomes s t c ∧ callerWork c < callerWork (callerOf s s.mover)

/-- A caller that has not stopped and stands at a command of its list, with micro-steps of it left where it is inside
it. -/
structure Working (c : Caller) : Prop where
  running : c.halted = none
  index : c.index < c.commands.length
  todo : ∀ f, c.inFlight = some f → f.todo ≠ []

theorem working_of_callerAgrees {s : State} {c : Caller} (h : CallerAgrees s c) (he : callerEnabled c = true) :
    Working c := by
  obtain ⟨hrun, hlt⟩ := h.running he
  refine ⟨hrun, hlt, fun f hf => ?_⟩
  obtain ⟨-, -, plan, -, -, -, hrest⟩ := inFlightOk_iff.1 (h.inside f hf).2
  obtain ⟨-, -, htodo, -⟩ := restOf_iff.1 hrest
  exact htodo

theorem callerWork_outside {c : Caller} (hh : c.halted = none) (hn : c.inFlight = none) :
    callerWork c = 8 * (c.commands.length - c.index) := by
  simp [callerWork, hh, hn]

theorem callerWork_inside {c : Caller} {f : InFlight} (hh : c.halted = none) (hi : c.inFlight = some f) :
    callerWork c = 8 * (c.commands.length - c.index - 1) + f.todo.length := by
  simp [callerWork, hh, hi]

theorem callerWork_halted {c : Caller} (h : Halt) : callerWork { c with halted := some h } = 0 := rfl

/-- A caller with work has more of it than what is left after its command. -/
theorem Working.lt_callerWork {c : Caller} (h : Working c) :
    8 * (c.commands.length - c.index - 1) < callerWork c := by
  have hlt := h.index
  cases hi : c.inFlight with
  | none => rw [callerWork_outside h.running hi]; omega
  | some f =>
    have := List.length_pos_of_ne_nil (h.todo f hi)
    rw [callerWork_inside h.running hi]; omega

section
variable {s t : State}

theorem complete_usesWork {u : State} (hk : KeepsRecords s u) (ha : agentExists s s.mover = true)
    (hc : Working (callerOf s s.mover)) (r : Result) : UsesWork s (complete r u) := by
  refine ⟨_, complete_moverBecomes hk ha r, ?_⟩
  rw [callerWork_outside (c := completed _ r) hc.running rfl]
  exact hc.lt_callerWork

theorem halt_usesWork {h : Halt} (hm : MoverBecomes s t { callerOf s s.mover with halted := some h })
    (hc : Working (callerOf s s.mover)) : UsesWork s t :=
  ⟨_, hm, by rw [callerWork_halted]; exact Nat.zero_lt_of_lt hc.lt_callerWork⟩

/-- A micro-step of an operation uses up work, where the micro-steps left of it were counted. -/
theorem advance_usesWork {f : InFlight} (ha : agentExists s s.mover = true) (hc : Working (callerOf s s.mover))
    (hf : 8 * ((callerOf s s.mover).commands.length - (callerOf s s.mover).index - 1) + f.todo.length ≤
      callerWork (callerOf s s.mover)) (h : advance f s = .next t) : UsesWork s t := by
  rcases advance_next h with ⟨-, rfl⟩ | ⟨m, ms, got, u, ht, -, hk, ⟨-, rfl⟩ | ⟨-, rfl⟩⟩
  · exact complete_usesWork (.refl s) ha hc _
  · exact complete_usesWork hk ha hc _
  · refine ⟨_, setInFlight_moverBecomes hk ha (some ⟨ms, f.finish, got⟩), ?_⟩
    rw [callerWork_inside (c := { callerOf s s.mover with inFlight := some ⟨ms, f.finish, got⟩ }) hc.running rfl]
    rw [ht, List.length_cons] at hf
    exact hf

theorem runSteps_usesWork {f : Finish} {ms : List MicroStep} {got : List Word} (ha : agentExists s s.mover = true)
    (hc : Working (callerOf s s.mover)) (h : runSteps f ms got s = .next t) : UsesWork s t := by
  obtain ⟨u, got', hk, rfl⟩ := runSteps_next h
  exact complete_usesWork hk ha hc _

/-- The first micro-step of an operation uses up work: the operation has at most 7 of them, and counted 8. -/
theorem startOperation_usesWork {i : Instr} (ha : agentExists s s.mover = true) (hc : Working (callerOf s s.mover))
    (hn : (callerOf s s.mover).inFlight = none) (h : startOperation (planOf s.params i) s = .next t) :
    UsesWork s t := by
  cases hp : planOf s.params i with
  | error e => rw [hp] at h; cases h; exact halt_usesWork (raiseFault_moverBecomes ha e) hc
  | ok plan =>
    rw [hp] at h
    refine advance_usesWork (f := ⟨plan.steps, plan.finish, []⟩) ha hc ?_ h
    have hlt := hc.index
    obtain ⟨-, -, hlen⟩ := planOf_legal hp
    rw [callerWork_outside hc.running hn]
    show _ + plan.steps.length ≤ _
    omega

theorem exec_usesWork {i : Instr} (ha : agentExists s s.mover = true) (hc : Working (callerOf s s.mover))
    (h : exec i s = .next t) : UsesWork s t := by
  rw [exec_eq_operate] at h
  cases hp : planOf s.params i with
  | error e => rw [hp] at h; cases h; exact halt_usesWork (raiseFault_moverBecomes ha e) hc
  | ok plan => rw [hp] at h; exact runSteps_usesWork ha hc h

/-- A turn of an agent that may move uses up work. -/
theorem takeTurn_usesWork {tn : Turn} (he : enabled s s.mover = true) (hc : Working (callerOf s s.mover))
    (h : takeTurn tn s = .next t) : UsesWork s t := by
  have ha : agentExists s s.mover = true := (Bool.and_eq_true_iff.1 he).1
  cases hi : (callerOf s s.mover).inFlight with
  | some f =>
    cases tn with
    | microStep a =>
      rw [takeTurn, runMicroStep_of_inside ⟨he, hi⟩] at h
      exact advance_usesWork ha hc (callerWork_inside hc.running hi).ge h
    | operation a =>
      rw [takeTurn, runOperation_of_inside ⟨he, hi⟩] at h
      exact runSteps_usesWork ha hc h
  | none =>
    obtain ⟨cw, hcw⟩ := exists_command he hi
    cases hd : decode cw with
    | error e =>
      rw [takeTurn_of_refused tn hi hcw hd] at h
      cases h
      exact halt_usesWork (refuseCommand_moverBecomes ha e) hc
    | ok i =>
      cases tn with
      | microStep a =>
        rw [takeTurn, runMicroStep_of_atCommand ⟨he, hi, cw, hcw, hd⟩] at h
        exact startOperation_usesWork ha hc hi h
      | operation a =>
        rw [takeTurn, runOperation_of_atCommand ⟨he, hi, cw, hcw, hd⟩] at h
        exact exec_usesWork ha hc h

/-- The work left of all agents is less where the moving agent's is. -/
theorem UsesWork.workLeft_lt (h : UsesWork s t) (ha : agentExists s s.mover = true) : workLeft t < workLeft s := by
  obtain ⟨c, hm, hlt⟩ := h
  have hagents : (agents t).Perm (agents s) :=
    (List.perm_ext_iff_of_nodup (agents_nodup t) (agents_nodup s)).2 fun a => by
      rw [mem_agents, mem_agents, hm.agents a]
  have hself : callerWork (callerOf t s.mover) < callerWork (callerOf s s.mover) := by rwa [hm.self]
  rw [workLeft, (hagents.map _).sum_eq]
  refine List.sum_lt_sum _ _ (fun a _ => ?_) ⟨s.mover, mem_agents.2 ha, hself⟩
  by_cases hne : a = s.mover
  · rw [hne]; exact hself.le
  · rw [hm.others a hne]

/-- A step of a run that has an agent to move uses up work. -/
theorem step_workLeft_lt (hs : RecordsAgree s) (hen : enabledAgents s ≠ []) (h : step s = .next t) :
    workLeft t < workLeft s := by
  obtain ⟨hw, -⟩ := step_cases h
  obtain ⟨⟨tn, s'⟩, hn⟩ := Option.ne_none_iff_exists'.1 fun hn => hen (nextTurn_none.1 hn)
  have hr := nextTurn_readied hn
  have hs' := recordsOk_iff.1 (hr.recordsOk.trans (recordsOk_iff.2 hs))
  have hwork : workLeft s' = workLeft s := by rw [hr.frame]; rfl
  have ht : takeTurn tn s' = .next t := by rwa [step, if_pos hw, hn] at h
  rw [← hwork]
  have hc := working_of_callerAgrees (hs'.callers _ hr.agentExists) (Bool.and_eq_true_iff.1 hr.ready).2
  exact (takeTurn_usesWork hr.ready hc ht).workLeft_lt hr.agentExists

end

/-- Settles O56, by induction on the work left. -/
theorem runsComeToRest : Obligations.RunsComeToRest := by
  intro s hs hw
  induction hn : workLeft s using Nat.strong_induction_on generalizing s with
  | _ n ih =>
    subst hn
    by_cases hen : enabledAgents s = []
    · exact ⟨0, s, Nat.zero_le _, run_zero s, hen, hs⟩
    · obtain ⟨t, ht⟩ : ∃ t, step s = .next t :=
        (step_answers_or_failed (recordsOk_iff.1 hs) hw).resolve_right fun h => hen h.1
      have hlt := step_workLeft_lt (recordsOk_iff.1 hs) hen ht
      obtain ⟨k, u, hk, hrun, hrest⟩ := ih _ hlt t (stepKeepsRecords s t hs ht)
        (by rw [Proofs.Scope.step_keeps_params ht, hw]) rfl
      exact ⟨k + 1, u, by omega, (run_succ ht k).trans hrun, hrest⟩

/-! A whole operation and its micro-steps (R55, R56). -/

theorem andThen_assoc {α β γ : Type} (o : Host.Outcome α Fault Refusal) (f : α → Host.Outcome β Fault Refusal)
    (g : β → Host.Outcome γ Fault Refusal) : andThen (andThen o f) g = andThen o fun x => andThen (f x) g := by
  cases o <;> rfl

/-- k steps of the machine, typed by the model's own names. -/
def steps (k : Nat) (s : State) : Host.Outcome State Fault Refusal := Sys2Proof.core.run k s

/-- A run goes on from its first step, whatever that answers. -/
theorem steps_succ (k : Nat) (s : State) : steps (k + 1) s = andThen (step s) (steps k) := by
  cases h : step s with
  | next t => exact run_succ h k
  | fault e =>
    have h' : Sys2Proof.core.step s = .fault e := h
    have hrun : Sys2Proof.core.run (k + 1) s = .fault e := by simp only [Host.Core.run, h']
    exact hrun
  | refused e =>
    have h' : Sys2Proof.core.step s = .refused e := h
    have hrun : Sys2Proof.core.run (k + 1) s = .refused e := by simp only [Host.Core.run, h']
    exact hrun

theorem steps_one (s : State) : steps 1 s = step s := by
  rw [steps_succ]
  cases step s <;> rfl

theorem advance_last (m : MicroStep) (fin : Finish) (got : List Word) (s : State) :
    advance ⟨[m], fin, got⟩ s =
      andThen (perform m got s) fun x => .next (complete (finishResult fin x.1) x.2) := rfl

theorem advance_cons (m m' : MicroStep) (ms : List MicroStep) (fin : Finish) (got : List Word) (s : State) :
    advance ⟨m :: m' :: ms, fin, got⟩ s =
      andThen (perform m got s) fun x => .next (setInFlight (some ⟨m' :: ms, fin, x.1⟩) x.2) := rfl

/-- The state between two micro-steps of the moving agent: its record holds the operation in progress, and ts is the
order of the turns to come. -/
def paused (g : Option InFlight) (ts : List Turn) (s : State) : State := setInFlight g { s with schedule := ts }

theorem paused_eq_withCallers (g : Option InFlight) (ts : List Turn) (s : State) :
    paused g ts s = withCallers (setInFlight g s).owner (setInFlight g s).contexts ts s := by
  have hset (a : Agent) (c : Caller) : setCaller { s with schedule := ts } a c =
      withCallers (setCaller s a c).owner (setCaller s a c).contexts ts s := by
    rcases a with _ | _ | i <;> rfl
  exact hset s.mover _

/-- The record of the moving agent inside g is made of the callers and the mover alone. -/
theorem paused_eq_of_keepsRecords {s u : State} (h : KeepsRecords s u) (g : Option InFlight) (ts : List Turn) :
    paused g ts u = withCallers (setInFlight g s).owner (setInFlight g s).contexts ts u := by
  have hset (a : Agent) (c : Caller) : (setCaller u a c).owner = (setCaller s a c).owner ∧
      (setCaller u a c).contexts = (setCaller s a c).contexts := by
    rcases a with _ | _ | i <;> simp [setCaller, h.owner, h.contexts]
  have hf : setInFlight g u = setCaller u s.mover { callerOf s s.mover with inFlight := g } := by
    rw [setInFlight, h.mover, h.callerOf]
  rw [paused_eq_withCallers, hf, (hset _ _).1, (hset _ _).2]
  rfl

theorem agentExists_of_keepsRecords {s u : State} (h : KeepsRecords s u) (ha : agentExists s s.mover = true) :
    agentExists u u.mover = true := by
  rw [h.mover, agentExists_congr (s := s) (by rw [h.contexts]), ha]

/-- A micro-step does the same in a state paused in an operation. -/
theorem perform_paused (m : MicroStep) (got : List Word) (g : Option InFlight) (ts : List Turn) (s : State) :
    perform m got (paused g ts s) = andThen (perform m got s) fun x => .next (x.1, paused g ts x.2) := by
  rw [paused_eq_withCallers, perform_withCallers]
  cases hp : perform m got s with
  | next x => simp only [andThen_of_next, paused_eq_of_keepsRecords (perform_keepsRecords hp)]
  | fault e => rfl
  | refused e => rfl

section
variable {s : State} (ha : agentExists s s.mover = true)
include ha

theorem callerOf_paused (g : Option InFlight) (ts : List Turn) :
    callerOf (paused g ts s) s.mover = { callerOf s s.mover with inFlight := g } :=
  callerOf_setCaller_self (s := { s with schedule := ts }) ha _

theorem setInFlight_paused (g g' : Option InFlight) (ts : List Turn) :
    setInFlight g' (paused g ts s) = paused g' ts s := by
  have hm : (paused g ts s).mover = s.mover := by simp [paused]
  rw [setInFlight, hm, callerOf_paused ha]
  exact setCaller_setCaller _ _ _ _

/-- Completion does not look at the operation in progress. -/
theorem complete_paused (r : Result) (g : Option InFlight) (ts : List Turn) :
    complete r (paused g ts s) = complete r { s with schedule := ts } := by
  have hm : (paused g ts s).mover = s.mover := by simp [paused]
  rw [complete, hm, callerOf_paused ha]
  exact setCaller_setCaller _ _ _ _

/-- A micro-step turn of the agent that is paused in f. -/
theorem step_paused (hw : s.params.wellFormed = true) (hh : (callerOf s s.mover).halted = none) (f : InFlight)
    (ts : List Turn) : step (paused (some f) (.microStep s.mover :: ts) s) = advance f (paused (some f) ts s) := by
  have hin (ts' : List Turn) : Inside (paused (some f) ts' s) s.mover f := by
    have hex : agentExists (paused (some f) ts' s) s.mover = true :=
      (agentExists_setCaller _ _ _ _).trans ha
    exact ⟨by simp [enabled, callerEnabled, hex, callerOf_paused ha, hh], by rw [callerOf_paused ha]⟩
  have hturn : { paused (some f) (.microStep s.mover :: ts) s with schedule := ts, mover := s.mover } =
      paused (some f) ts s := by
    rw [paused_eq_withCallers, paused_eq_withCallers]
    rfl
  rw [step_scheduled (t := .microStep s.mover) (ts := ts) (by simpa [paused] using hw) (by simp [paused])
    (hin _).ready]
  have hmover : (paused (some f) ts s).mover = s.mover := by simp [paused]
  calc _ = runMicroStep (paused (some f) ts s) := congrArg runMicroStep hturn
    _ = _ := runMicroStep_of_inside (hmover.symm ▸ hin ts)

end

/-- The micro-step that is due and then the turns for the others are all that is left of the operation. -/
theorem advance_run {ms : List MicroStep} {m : MicroStep} {fin : Finish} {got : List Word} {g : Option InFlight}
    {s : State} (hw : s.params.wellFormed = true) (ha : agentExists s s.mover = true)
    (hh : (callerOf s s.mover).halted = none) :
    andThen (advance ⟨m :: ms, fin, got⟩
        (paused g (List.replicate ms.length (.microStep s.mover) ++ s.schedule) s)) (steps ms.length) =
      runSteps fin (m :: ms) got s := by
  induction ms generalizing m got g s with
  | nil =>
    simp only [advance_last, perform_paused, runSteps, andThen_assoc, List.length_nil, List.replicate_zero,
      List.nil_append]
    cases hp : perform m got s with
    | fault e => rfl
    | refused e => rfl
    | next x =>
      have hk := perform_keepsRecords hp
      have hau := agentExists_of_keepsRecords hk ha
      simp only [andThen_of_next, complete_paused hau, ← hk.schedule]
      rfl
  | cons m' ms ih =>
    rw [advance_cons, runSteps, perform_paused, andThen_assoc, andThen_assoc]
    cases hp : perform m got s with
    | fault e => rfl
    | refused e => rfl
    | next x =>
      have hk := perform_keepsRecords hp
      have hau := agentExists_of_keepsRecords hk ha
      have hhu : (callerOf x.2 x.2.mover).halted = none := by rw [hk.mover, hk.callerOf, hh]
      have hwu : x.2.params.wellFormed = true := by rw [hk.params, hw]
      simp only [andThen_of_next, setInFlight_paused hau, List.length_cons, List.replicate_succ, List.cons_append,
        steps_succ, ← hk.schedule, ← hk.mover]
      rw [step_paused hau hwu hhu]
      exact ih hwu hau hhu

theorem setCaller_callerOf {s : State} {a : Agent} (ha : agentExists s a = true) :
    setCaller s a (callerOf s a) = s := by
  rcases a with _ | _ | i
  · rfl
  · rfl
  · have hi : i < s.contexts.length := of_decide_eq_true ha
    simp [setCaller, callerOf, List.getElem?_eq_getElem hi]

/-- An agent outside any operation is paused in none. -/
theorem paused_none {s : State} (ha : agentExists s s.mover = true) (hn : (callerOf s s.mover).inFlight = none)
    (ts : List Turn) : paused none ts s = { s with schedule := ts } := by
  have hc : { callerOf s s.mover with inFlight := none } = callerOf s s.mover := by rw [← hn]
  calc paused none ts s = setCaller { s with schedule := ts } s.mover { callerOf s s.mover with inFlight := none } := rfl
    _ = setCaller { s with schedule := ts } s.mover (callerOf { s with schedule := ts } s.mover) := by rw [hc]; rfl
    _ = _ := setCaller_callerOf (s := { s with schedule := ts }) ha

/-- Settles O46: a command word that is refused and a check that fails take one turn of either kind; an operation
takes a turn for each of its 1 to 7 micro-steps. -/
theorem operationIsItsMicroSteps : Obligations.OperationIsItsMicroSteps := by
  intro s a rest hw he hn
  have ha : agentExists s a = true := (Bool.and_eq_true_iff.1 he).1
  suffices h : ∃ k, 1 ≤ k ∧ k ≤ 7 ∧ steps k { s with schedule := List.replicate k (.microStep a) ++ rest } =
      step { s with schedule := .operation a :: rest } from h
  have hh : (callerOf s a).halted = none := by
    simp only [enabled, callerEnabled, Bool.and_eq_true, Option.isNone_iff_eq_none] at he
    exact he.2.1
  obtain ⟨cw, hcw⟩ := exists_command he hn
  have hwhole : step { s with schedule := .operation a :: rest } =
      runOperation { s with schedule := rest, mover := a } :=
    step_scheduled (s := { s with schedule := .operation a :: rest }) (t := .operation a) hw rfl he
  have hmicro (ts : List Turn) : step { s with schedule := .microStep a :: ts } =
      runMicroStep { s with schedule := ts, mover := a } :=
    step_scheduled (s := { s with schedule := .microStep a :: ts }) (t := .microStep a) hw rfl he
  rw [hwhole]
  cases hd : decode cw with
  | error e =>
    refine ⟨1, le_rfl, by omega, ?_⟩
    rw [steps_one]
    have hrefused (tn : Turn) := takeTurn_of_refused (s := { s with schedule := rest, mover := a }) tn hn hcw hd
    exact (hmicro rest).trans ((hrefused (.microStep a)).trans (hrefused (.operation a)).symm)
  | ok i =>
    have hat (ts : List Turn) : AtCommand { s with schedule := ts, mover := a } a i := ⟨he, hn, cw, hcw, hd⟩
    rw [runOperation_of_atCommand (hat rest), exec_eq_operate]
    cases hp : planOf s.params i with
    | error e =>
      refine ⟨1, le_rfl, by omega, ?_⟩
      rw [steps_one]
      refine (hmicro rest).trans ((runMicroStep_of_atCommand (hat rest)).trans ?_)
      simp only [hp, startOperation, operate]
    | ok plan =>
      obtain ⟨steps, fin⟩ := plan
      obtain ⟨-, hne, hlen⟩ := planOf_legal hp
      obtain ⟨m, ms, rfl⟩ := List.exists_cons_of_ne_nil hne
      refine ⟨ms.length + 1, by omega, hlen, ?_⟩
      rw [steps_succ, List.replicate_succ, List.cons_append, hmicro, runMicroStep_of_atCommand (hat _)]
      simp only [hp, startOperation, operate]
      rw [← advance_run (g := none) (s := { s with schedule := rest, mover := a }) hw ha hh,
        paused_none (s := { s with schedule := rest, mover := a }) ha hn]

/-! Turns of two agents in a fixed order (R57, R59). -/

/-- From s to t agent a took a turn that raised no fault: its record is now c, the turns to come are ts, and the other
agents' records are as before. -/
structure Took (s t : State) (a : Agent) (ts : List Turn) (c : Caller) : Prop
    extends MoverBecomes { s with schedule := ts, mover := a } t c where
  schedule : t.schedule = ts
  fault : t.fault = s.fault

section
variable {s t : State} {a b : Agent} {ts : List Turn} {c : Caller}

/-- An agent that did not take the turn has the record it had. -/
theorem Took.callerOf_other (h : Took s t a ts c) (hne : b ≠ a) : callerOf t b = callerOf s b :=
  (h.others b hne).trans (callerOf_congr rfl rfl b)

theorem Took.agentExists_eq (h : Took s t a ts c) : agentExists t b = agentExists s b := h.agents b

/-- An agent that did not take the turn may move where it might before. -/
theorem Took.enabled_other (h : Took s t a ts c) (hne : b ≠ a) : enabled t b = enabled s b := by
  rw [enabled, enabled, h.callerOf_other hne, h.agentExists_eq]

theorem AtCommand.of_other {i : Instr} (hat : AtCommand s b i) (h : Took s t a ts c) (hne : b ≠ a) :
    AtCommand t b i where
  ready := by rw [h.enabled_other hne, hat.ready]
  outside := by rw [h.callerOf_other hne, hat.outside]
  command := by rw [h.callerOf_other hne]; exact hat.command

theorem Inside.of_other {f : InFlight} (hin : Inside s b f) (h : Took s t a ts c) (hne : b ≠ a) :
    Inside t b f where
  ready := by rw [h.enabled_other hne, hin.ready]
  inside := by rw [h.callerOf_other hne, hin.inside]

/-- An agent that entered an operation is inside it. -/
theorem Took.inside {f : InFlight} (h : Took s t a ts { callerOf s a with inFlight := some f })
    (he : enabled s a = true) : Inside t a f := by
  obtain ⟨ha, hc⟩ := Bool.and_eq_true_iff.1 he
  have hself : callerOf t a = { callerOf s a with inFlight := some f } := h.self
  have hh : (callerOf s a).halted = none := by simpa using (Bool.and_eq_true_iff.1 hc).1
  exact ⟨by simp [enabled, callerEnabled, h.agentExists_eq, ha, hself, hh], by rw [hself]⟩

theorem took_complete {u : State} (he : enabled s a = true)
    (hk : KeepsRecords { s with schedule := ts, mover := a } u) (r : Result) :
    Took s (complete r u) a ts (completed (callerOf s a) r) where
  toMoverBecomes := complete_moverBecomes hk (Bool.and_eq_true_iff.1 he).1 r
  schedule := by simp [hk.schedule]
  fault := by simp [hk.fault]

theorem took_setInFlight {u : State} (he : enabled s a = true)
    (hk : KeepsRecords { s with schedule := ts, mover := a } u) (f : InFlight) :
    Took s (setInFlight (some f) u) a ts { callerOf s a with inFlight := some f } where
  toMoverBecomes := setInFlight_moverBecomes hk (Bool.and_eq_true_iff.1 he).1 (some f)
  schedule := by simp [hk.schedule]
  fault := by simp [hk.fault]

/-- The first of several micro-steps of an operation. -/
theorem step_enters {i : Instr} {m m' : MicroStep} {ms : List MicroStep} {fin : Finish} {got : List Word} {u : State}
    (hw : s.params.wellFormed = true) (hs : s.schedule = .microStep a :: ts) (hat : AtCommand s a i)
    (hp : planOf s.params i = .ok ⟨m :: m' :: ms, fin⟩)
    (hm : perform m [] { s with schedule := ts, mover := a } = .next (got, u)) :
    step s = .next (setInFlight (some ⟨m' :: ms, fin, got⟩) u) := by
  have hat' : AtCommand { s with schedule := ts, mover := a } a i := ⟨hat.ready, hat.outside, hat.command⟩
  calc step s = runMicroStep { s with schedule := ts, mover := a } := step_scheduled hw hs hat.ready
    _ = advance ⟨m :: m' :: ms, fin, []⟩ { s with schedule := ts, mover := a } := by
      rw [runMicroStep_of_atCommand hat']; simp only [hp, startOperation]
    _ = _ := by rw [advance_cons, hm, andThen_of_next]

/-- The last micro-step of an operation. -/
theorem step_finishes {m : MicroStep} {fin : Finish} {got got' : List Word} {u : State}
    (hw : s.params.wellFormed = true) (hs : s.schedule = .microStep a :: ts) (hin : Inside s a ⟨[m], fin, got⟩)
    (hm : perform m got { s with schedule := ts, mover := a } = .next (got', u)) :
    step s = .next (complete (finishResult fin got') u) := by
  have hin' : Inside { s with schedule := ts, mover := a } a ⟨[m], fin, got⟩ := ⟨hin.ready, hin.inside⟩
  calc step s = runMicroStep { s with schedule := ts, mover := a } := step_scheduled hw hs hin.ready
    _ = advance ⟨[m], fin, got⟩ { s with schedule := ts, mover := a } := runMicroStep_of_inside hin'
    _ = _ := by rw [advance_last, hm, andThen_of_next]

/-- A whole operation of one micro-step. -/
theorem step_whole {i : Instr} {m : MicroStep} {fin : Finish} {got : List Word} {u : State}
    (hw : s.params.wellFormed = true) (hs : s.schedule = .operation a :: ts) (hat : AtCommand s a i)
    (hp : planOf s.params i = .ok ⟨[m], fin⟩)
    (hm : perform m [] { s with schedule := ts, mover := a } = .next (got, u)) :
    step s = .next (complete (finishResult fin got) u) := by
  have hat' : AtCommand { s with schedule := ts, mover := a } a i := ⟨hat.ready, hat.outside, hat.command⟩
  calc step s = runOperation { s with schedule := ts, mover := a } := step_scheduled hw hs hat.ready
    _ = runSteps fin [m] [] { s with schedule := ts, mover := a } := by
      rw [runOperation_of_atCommand hat', exec_eq_operate]; simp only [hp, operate]
    _ = _ := by rw [runSteps, hm, andThen_of_next, runSteps]

/-! The lost update (R57). -/

/-- The read of a read-modify-write of IO_MUX(n): the operation keeps the value read. -/
theorem step_readIoMux {i : Instr} {n : Pin} {k : BitIndex} {en : Bool} (hw : s.params.wellFormed = true)
    (hs : s.schedule = .microStep a :: ts) (hat : AtCommand s a i) (hmap : isMapped s.params n = true)
    (hp : planOf s.params i = .ok (modifyBit (.ioMux n) k en)) :
    ∃ t, step s = .next t ∧ t.ioMux = s.ioMux ∧
      Took s t a ts { callerOf s a with inFlight := some ⟨[.writeBack (.ioMux n) k en], .ok, [s.ioMux.get n]⟩ } := by
  have hm : perform (.read (.ioMux n)) [] { s with schedule := ts, mover := a } =
      .next ([s.ioMux.get n], { s with schedule := ts, mover := a }) := by
    rw [perform, readReg_ioMux (s := { s with schedule := ts, mover := a }) hmap, andThen_of_next, List.nil_append]
  exact ⟨_, step_enters hw hs hat hp hm, by simp, took_setInFlight hat.ready (.refl _) _⟩

/-- The write of a read-modify-write of IO_MUX(n): the value read, with one bit edited. -/
theorem step_writeBackIoMux {n : Pin} {k : BitIndex} {en : Bool} {w : Word} (hw : s.params.wellFormed = true)
    (hs : s.schedule = .microStep a :: ts) (hin : Inside s a ⟨[.writeBack (.ioMux n) k en], .ok, [w]⟩)
    (hmap : isMapped s.params n = true) :
    ∃ t c, step s = .next t ∧ t.ioMux = putPin s.ioMux n (editBit w k en) ∧ Took s t a ts c := by
  have hm : perform (.writeBack (.ioMux n) k en) [w] { s with schedule := ts, mover := a } =
      .next ([w], writeIoMux n (editBit w k en) { s with schedule := ts, mover := a }) := by
    rw [perform, writeReg_ioMux (s := { s with schedule := ts, mover := a }) hmap, andThen_of_next]
    rfl
  exact ⟨_, _, step_finishes hw hs hin hm, by simp, took_complete hin.ready (perform_keepsRecords hm) _⟩

end

theorem planOf_setPullup {p : Params} {n : Pin} (hb : p.bonded.get n = true) (hmap : isMapped p n = true)
    (hlp : p.lpCapable.get n = false) (en : Bool) :
    planOf p (.setPullup n.val en) = .ok (modifyBit (.ioMux n) p.puBit en) := by
  simp [planOf, planSetPullup, planPull, checkMuxPin_ok hb hmap, hlp]

theorem planOf_setInputEnable {p : Params} {n : Pin} (hb : p.bonded.get n = true) (hmap : isMapped p n = true)
    (en : Bool) : planOf p (.setInputEnable n.val en) = .ok (modifyBit (.ioMux n) p.ieBit en) := by
  simp [planOf, planSetInputEnable, checkMuxPin_ok hb hmap]

theorem planOf_setLevel {p : Params} {n : Pin} (hb : p.bonded.get n = true) (level : Bool) :
    planOf p (.setLevel n.val level) = .ok ⟨[.write (levelPort (bankOf n) level) (pinMask n)], .ok⟩ := by
  simp [planOf, planSetLevel, setLevelSteps, checkPin_ok hb]

theorem decode_encode_setPullup (n : Pin) (en : Bool) :
    decode (encode (.setPullup n.val en)) = .ok (.setPullup n.val en) := by
  revert n en; decide

theorem decode_encode_setInputEnable (n : Pin) (en : Bool) :
    decode (encode (.setInputEnable n.val en)) = .ok (.setInputEnable n.val en) := by
  revert n en; decide

theorem decode_encode_setLevel (n : Pin) (level : Bool) :
    decode (encode (.setLevel n.val level)) = .ok (.setLevel n.val level) := by
  revert n level; decide

/-- Settles O47: both agents read the same value, and the second write is that value with the second agent's bit. -/
theorem interleavedUpdateIsLost : Obligations.InterleavedUpdateIsLost := by
  intro s n a b up ie rest hw hab hb hmap hlp hea heb hna hnb hca hcb hs
  have hata : AtCommand s a (.setPullup n.val up) := ⟨hea, hna, _, hca, decode_encode_setPullup n up⟩
  have hatb : AtCommand s b (.setInputEnable n.val ie) := ⟨heb, hnb, _, hcb, decode_encode_setInputEnable n ie⟩
  obtain ⟨s1, hstep1, hmux1, h1⟩ := step_readIoMux hw hs hata hmap (planOf_setPullup hb hmap hlp up)
  have hp1 : s1.params = s.params := h1.params
  obtain ⟨s2, hstep2, hmux2, h2⟩ := step_readIoMux (hp1 ▸ hw) h1.schedule (hatb.of_other h1 hab.symm) (hp1 ▸ hmap)
    (by rw [hp1]; exact planOf_setInputEnable hb hmap ie)
  have hp2 : s2.params = s.params := h2.params.trans hp1
  have hin1 := (h1.inside hea).of_other h2 hab
  obtain ⟨s3, c3, hstep3, -, h3⟩ := step_writeBackIoMux (hp2 ▸ hw) h2.schedule hin1 (hp2 ▸ hmap)
  have hp3 : s3.params = s.params := h3.params.trans hp2
  have hin2 := (h2.inside (hatb.of_other h1 hab.symm).ready).of_other h3 hab.symm
  obtain ⟨t, c4, hstep4, hmux4, h4⟩ := step_writeBackIoMux (hp3 ▸ hw) h3.schedule hin2 (hp3 ▸ hmap)
  refine ⟨t, ?_, h4.fault.trans (h3.fault.trans (h2.fault.trans h1.fault)), fun k => ?_⟩
  · rw [run_succ hstep1, run_succ hstep2, run_succ hstep3, run_succ hstep4, run_zero]
  · rw [hmux4, get_putPin, if_pos rfl, hmux1, editBit_getLsbD]
    simp only [eq_comm]

/-! The torn snapshot (R59). -/

/-- The bit that a level port's write leaves on OUT, for the pin whose mask is written (R46, R47, R117). -/
theorem writeReg_levelPort (n : Pin) (level : Bool) (s : State) :
    ∃ u, writeReg (levelPort (bankOf n) level) (pinMask n) s = .next u ∧
      (bankGet u.out (bankOf n)).getLsbD (bitOf n).val = level := by
  obtain ⟨⟨u, hu, -, hset⟩, ⟨u', hu', -, hclear⟩, -, -⟩ := portsSetAndClearBits s (bankOf n) (bankOf n) (pinMask n)
  cases level with
  | true => exact ⟨u, hu, by rw [hset]; simp [pinMask]⟩
  | false => exact ⟨u', hu', by rw [hclear]; simp [pinMask]⟩

section
variable {s : State} {a : Agent} {ts : List Turn}

/-- The first read of GET_ALL_OUTPUTS: the operation keeps OUT[LO]. -/
theorem step_readOutLo (hw : s.params.wellFormed = true) (hs : s.schedule = .microStep a :: ts)
    (hat : AtCommand s a .getAllOutputs) :
    ∃ t, step s = .next t ∧ t.out = s.out ∧
      Took s t a ts { callerOf s a with inFlight := some ⟨[.read (.out .hi)], .snapshot, [s.out.lo]⟩ } := by
  have hm : perform (.read (.out .lo)) [] { s with schedule := ts, mover := a } =
      .next ([s.out.lo], drawn { s with schedule := ts, mover := a }) := rfl
  exact ⟨_, step_enters hw hs hat rfl hm, by simp, took_setInFlight hat.ready (perform_keepsRecords hm) _⟩

/-- The second read of GET_ALL_OUTPUTS: bits 7..0 of the high half are those of OUT[HI] now. -/
theorem step_readOutHi {lo : Word} (hw : s.params.wellFormed = true) (hs : s.schedule = .microStep a :: ts)
    (hin : Inside s a ⟨[.read (.out .hi)], .snapshot, [lo]⟩) :
    ∃ t hi, step s = .next t ∧ t.out = s.out ∧ (∀ k < 8, hi.getLsbD k = s.out.hi.getLsbD k) ∧
      Took s t a ts (completed (callerOf s a) (.word64 (concat64 hi lo))) := by
  have hm : perform (.read (.out .hi)) [lo] { s with schedule := ts, mover := a } =
      .next ([lo, readStored s.out .hi s], drawn { s with schedule := ts, mover := a }) := rfl
  exact ⟨_, readStored s.out .hi s, step_finishes hw hs hin hm, by simp, readStored_getLsbD s.out .hi s,
    took_complete hin.ready (perform_keepsRecords hm) _⟩

/-- A whole SET_LEVEL of a bonded pin. -/
theorem step_setLevel {n : Pin} {level : Bool} (hw : s.params.wellFormed = true)
    (hs : s.schedule = .operation a :: ts) (hat : AtCommand s a (.setLevel n.val level))
    (hb : s.params.bonded.get n = true) :
    ∃ t c, step s = .next t ∧ (bankGet t.out (bankOf n)).getLsbD (bitOf n).val = level ∧ Took s t a ts c := by
  obtain ⟨u, hu, hbit⟩ := writeReg_levelPort n level { s with schedule := ts, mover := a }
  have hm : perform (.write (levelPort (bankOf n) level) (pinMask n)) [] { s with schedule := ts, mover := a } =
      .next ([], u) := by rw [perform, hu, andThen_of_next]
  exact ⟨_, _, step_whole hw hs hat (planOf_setLevel hb level) hm, by simpa using hbit,
    took_complete hat.ready (perform_keepsRecords hm) _⟩

end

/-- Settles O48: the low half is read before the level is written, the high half after it. -/
theorem snapshotCanBeTorn : Obligations.SnapshotCanBeTorn := by
  intro s n a b level rest hw hab hb hea heb hna hnb hca hcb hs
  have hata : AtCommand s a .getAllOutputs := ⟨hea, hna, _, hca, by decide⟩
  have hatb : AtCommand s b (.setLevel n.val level) := ⟨heb, hnb, _, hcb, decode_encode_setLevel n level⟩
  obtain ⟨s1, hstep1, -, h1⟩ := step_readOutLo hw hs hata
  have hp1 : s1.params = s.params := h1.params
  obtain ⟨s2, c, hstep2, hbit, h2⟩ := step_setLevel (hp1 ▸ hw) h1.schedule (hatb.of_other h1 hab.symm) (hp1 ▸ hb)
  have hp2 : s2.params = s.params := h2.params.trans hp1
  obtain ⟨t, hi, hstep3, hout, hhi, h3⟩ := step_readOutHi (hp2 ▸ hw) h2.schedule ((h1.inside hea).of_other h2 hab)
  have hself1 : callerOf s1 a = _ := h1.self
  have hself3 : callerOf t a = _ := h3.self
  refine ⟨t, concat64 hi s.out.lo, ?_, ?_, by rw [hout, hbit], fun hn => ?_, fun hn => ?_⟩
  · rw [run_succ hstep1, run_succ hstep2, run_succ hstep3, run_zero]
  · rw [hself3, h2.callerOf_other hab, hself1]
    rfl
  · have hbank : bankOf n = .hi := bankOf_high (by omega)
    rw [concat64_getLsbD, if_neg (by omega), hhi _ (bitOf_lt_eight hbank)]
    rwa [hbank] at hbit
  · rw [concat64_getLsbD, if_pos hn, bitOf_low hn]

end Sys2Proof.Proofs.Memory
end

section
/-! The encoding family (30_encoding.md): the fields of a command word by arithmetic, the decoder and the encoder as
each other's inverse, the assembler's operands, and the one result of an operation. -/

namespace Sys2Proof.Proofs.Encoding

open Sys2Proof Sys2Proof.Machine Sys2Proof.Proofs.MachineState

/-! The fields of a command word (R70 to R72). -/

theorem opField_toNat (cw : CmdWord) : (opField cw).toNat = cw.toNat / 4096 := by
  have := cw.isLt
  simp only [opField, BitVec.extractLsb'_toNat, Nat.shiftRight_eq_div_pow]
  omega

theorem rsvHField_eq_zero_iff (cw : CmdWord) : rsvHField cw = 0 ↔ cw.toNat / 512 % 8 = 0 := by
  simp [rsvHField, BitVec.toNat_eq, Nat.shiftRight_eq_div_pow]

theorem rsvLField_eq_zero_iff (cw : CmdWord) : rsvLField cw = 0 ↔ cw.toNat / 64 % 4 = 0 := by
  simp [rsvLField, BitVec.toNat_eq, Nat.shiftRight_eq_div_pow]

theorem vField_eq (cw : CmdWord) : vField cw = (cw.toNat / 256 % 2 == 1) := by
  simp [vField, BitVec.getLsbD, Nat.testBit_eq_decide_div_mod_eq, beq_eq_decide]

theorem pinField_eq (cw : CmdWord) : pinField cw = cw.toNat % 64 := by
  simp [pinField]

theorem takesNoValue_iff (op : Nat) : takesNoValue op = true ↔ op = 0 ∨ op = 7 ∨ op = 8 ∨ op = 9 := by
  simp [takesNoValue, or_assoc]

theorem takesNoPin_iff (op : Nat) : takesNoPin op = true ↔ op = 8 ∨ op = 9 := by
  simp [takesNoPin]

/-! The command word of an operation (R82). -/

/-- The three fields do not overlap, so the word is their sum. -/
theorem commandWord_toNat {op pin : Nat} (hop : op < 16) (hpin : pin < 64) (v : Bool) :
    (commandWord op v pin).toNat = op * 2 ^ 12 + (if v then 2 ^ 8 else 0) + pin := by
  have hv : v.toNat < 2 := v.toNat_lt
  have hword : (commandWord op v pin).toNat = op <<< 12 ||| v.toNat <<< 8 ||| pin := by
    simp only [commandWord, BitVec.toNat_or, BitVec.toNat_shiftLeft, BitVec.toNat_ofNat, Nat.shiftLeft_eq]
    congr 2 <;> omega
  rw [hword, Nat.or_assoc, ← Nat.shiftLeft_add_eq_or_of_lt (show pin < 2 ^ 8 by omega),
    ← Nat.shiftLeft_add_eq_or_of_lt (show v.toNat <<< 8 + pin < 2 ^ 12 by rw [Nat.shiftLeft_eq]; omega)]
  cases v <;> simp [Nat.shiftLeft_eq, Nat.add_assoc]

/-- A word whose reserved fields are 0 is the command word of its other three fields. -/
theorem commandWord_fields {cw : CmdWord} (hh : rsvHField cw = 0) (hl : rsvLField cw = 0) :
    commandWord (opField cw).toNat (vField cw) (pinField cw) = cw := by
  have := cw.isLt
  rw [rsvHField_eq_zero_iff] at hh
  rw [rsvLField_eq_zero_iff] at hl
  apply BitVec.eq_of_toNat_eq
  rw [commandWord_toNat (opField cw).isLt (by rw [pinField_eq]; omega), opField_toNat, pinField_eq, vField_eq]
  simp only [beq_iff_eq]
  split <;> omega

section
variable {op pin : Nat} (hop : op < 16) (hpin : pin < 64) (v : Bool)
include hop hpin

theorem opField_commandWord : (opField (commandWord op v pin)).toNat = op := by
  rw [opField_toNat, commandWord_toNat hop hpin]
  split <;> omega

theorem rsvHField_commandWord : rsvHField (commandWord op v pin) = 0 := by
  rw [rsvHField_eq_zero_iff, commandWord_toNat hop hpin]
  split <;> omega

theorem rsvLField_commandWord : rsvLField (commandWord op v pin) = 0 := by
  rw [rsvLField_eq_zero_iff, commandWord_toNat hop hpin]
  split <;> omega

theorem vField_commandWord : vField (commandWord op v pin) = v := by
  rw [vField_eq, commandWord_toNat hop hpin]
  cases v
  · simp; omega
  · simp; omega

theorem pinField_commandWord : pinField (commandWord op v pin) = pin := by
  rw [pinField_eq, commandWord_toNat hop hpin]
  split <;> omega

end

/-! The decoder (R74 to R80). -/

/-- Fields OP, V and PIN that R76 to R78 do not refuse. -/
structure Admitted (op : Nat) (v : Bool) (pin : Nat) : Prop where
  op_lt : op < 10
  noValue : takesNoValue op = true → v = false
  noPin : takesNoPin op = true → pin = 0

/-- `decode` answers with an operation exactly where no check refuses: the one that OP selects. -/
theorem decode_eq_ok_iff {cw : CmdWord} {i : Instr} :
    decode cw = .ok i ↔ rsvHField cw = 0 ∧ rsvLField cw = 0 ∧
      Admitted (opField cw).toNat (vField cw) (pinField cw) ∧
      decodeOp (opField cw).toNat (pinField cw) (vField cw) = .ok i := by
  constructor
  · intro h
    simp only [decode] at h
    split at h
    · cases h
    split at h
    · cases h
    split at h
    · cases h
    split at h
    · cases h
    rename_i hop hrsv hv hpin
    obtain ⟨hh, hl⟩ := not_or.1 hrsv
    exact ⟨not_not.1 hh, not_not.1 hl, ⟨by omega, by simpa using hv, by simpa using hpin⟩, h⟩
  · rintro ⟨hh, hl, ⟨hop, hv, hpin⟩, h⟩
    simp only [decode]
    rw [if_neg (by omega), if_neg (by simp [hh, hl]), if_neg (by simpa using hv), if_neg (by simpa using hpin), h]

/-- The operation an OP value below 10 selects (R74). -/
theorem decodeOp_of_lt {op : Nat} (h : op < 10) (pin : Nat) (v : Bool) :
    decodeOp op pin v = .ok (if op = 0 then .reset pin else if op = 1 then .setPullup pin v
      else if op = 2 then .setPulldown pin v else if op = 3 then .setInputEnable pin v
      else if op = 4 then .setOutputEnable pin v else if op = 5 then .setOpenDrain pin v
      else if op = 6 then .setLevel pin v else if op = 7 then .getLevel pin
      else if op = 8 then .getAllInputs else .getAllOutputs) := by
  interval_cases op <;> rfl

/-- The operation OP selects is encoded by the same OP, V and PIN, and its pin is the PIN field's. -/
theorem encode_of_decodeOp {op pin : Nat} {v : Bool} {i : Instr} (h : decodeOp op pin v = .ok i)
    (ha : Admitted op v pin) (hpin : pin < 64) : i.wellFormed = true ∧ encode i = commandWord op v pin := by
  obtain ⟨hop, hv, hp⟩ := ha
  unfold decodeOp at h
  split at h <;> cases h
  case h_1 | h_8 => exact ⟨by simpa [Instr.wellFormed] using hpin, by rw [hv rfl]; rfl⟩
  case h_9 | h_10 => exact ⟨rfl, by rw [hv rfl, hp rfl]; rfl⟩
  all_goals exact ⟨by simpa [Instr.wellFormed] using hpin, rfl⟩

/-- The command word of admitted fields spells the operation OP selects. -/
theorem decode_commandWord {op pin : Nat} {v : Bool} {i : Instr} (ha : Admitted op v pin) (hpin : pin < 64)
    (h : decodeOp op pin v = .ok i) : decode (commandWord op v pin) = .ok i := by
  have hop : op < 16 := ha.op_lt.trans (by decide)
  rw [decode_eq_ok_iff, opField_commandWord hop hpin, vField_commandWord hop hpin, pinField_commandWord hop hpin]
  exact ⟨rsvHField_commandWord hop hpin v, rsvLField_commandWord hop hpin v, ha, h⟩

/-- Settles O1: the word of each row has admitted fields, and OP selects the row. -/
theorem decodeInvertsEncode : Obligations.DecodeInvertsEncode := by
  intro i hwf
  have fits {pin : Nat} (h : decide (pin < 64) = true) : pin < 64 := of_decide_eq_true h
  cases i with
  | reset pin | getLevel pin => exact decode_commandWord ⟨by decide, fun _ => rfl, nofun⟩ (fits hwf) rfl
  | setPullup pin v | setPulldown pin v | setInputEnable pin v | setOutputEnable pin v | setOpenDrain pin v
  | setLevel pin v => exact decode_commandWord ⟨by decide, nofun, nofun⟩ (fits hwf) rfl
  | getAllInputs | getAllOutputs =>
    exact decode_commandWord ⟨by decide, fun _ => rfl, fun _ => rfl⟩ (by decide) rfl

/-- Settles O2: a word that decodes has its reserved fields 0, so it is the word of its other three fields, and
these are the fields of the operation's encoding. -/
theorem encodeInvertsDecode : Obligations.EncodeInvertsDecode := by
  intro cw i h
  obtain ⟨hh, hl, ha, hsel⟩ := decode_eq_ok_iff.1 h
  have hpin : pinField cw < 64 := by rw [pinField_eq]; omega
  obtain ⟨hwf, henc⟩ := encode_of_decodeOp hsel ha hpin
  exact ⟨hwf, henc.trans (commandWord_fields hh hl)⟩

/-- Settles O3: the checks of `decode` stand in R80's order, each over a field that arithmetic takes out. -/
theorem decodeChecksInOrder : Obligations.DecodeChecksInOrder := by
  intro cw
  simp only [decode, opField_toNat, pinField_eq, vField_eq, ne_eq, rsvHField_eq_zero_iff, rsvLField_eq_zero_iff,
    Bool.and_eq_true, takesNoValue_iff, takesNoPin_iff, beq_iff_eq, bne_iff_ne]
  by_cases hop : 10 ≤ cw.toNat / 4096
  · simp only [if_pos hop]
  · simp only [if_neg hop, decodeOp_of_lt (Nat.lt_of_not_le hop)]

/-! The assembler (R82). -/

theorem asmPin_eq (pin : Int) : asmPin pin = if 0 ≤ pin ∧ pin ≤ 63 then some pin.toNat else none := by
  simp only [asmPin, show pin < 64 ↔ pin ≤ 63 by omega]

theorem asmEnable_eq (e : Int) : asmEnable e = if e = 0 ∨ e = 1 then some (e == 1) else none := by
  by_cases h1 : e = 1
  · simp [asmEnable, h1]
  · by_cases h0 : e = 0
    · simp [asmEnable, h0]
    · simp [asmEnable, h0, h1]

/-- A line with a pin assembles to the operation's word where the pin fits its field. -/
theorem asmOne_encode (f : Nat → Instr) (pin : Int) :
    (asmOne f pin).map encode = if 0 ≤ pin ∧ pin ≤ 63 then some (encode (f pin.toNat)) else none := by
  rw [asmOne, asmPin_eq]
  split <;> rfl

/-- A line with a pin and an enable assembles where both operands fit their fields. -/
theorem asmTwo_encode (f : Nat → Bool → Instr) (pin e : Int) :
    (asmTwo f pin e).map encode =
      if (0 ≤ pin ∧ pin ≤ 63) ∧ (e = 0 ∨ e = 1) then some (encode (f pin.toNat (e == 1))) else none := by
  rw [asmTwo, asmPin_eq, asmEnable_eq]
  by_cases hp : 0 ≤ pin ∧ pin ≤ 63
  · by_cases he : e = 0 ∨ e = 1
    · rw [if_pos hp, if_pos he, if_pos ⟨hp, he⟩]; rfl
    · rw [if_pos hp, if_neg he, if_neg fun h => he h.2]; rfl
  · rw [if_neg hp, if_neg (c := _ ∧ _) fun h => hp h.1]; rfl

/-- Settles O4. -/
theorem assemblerConvertsOperands : Obligations.AssemblerConvertsOperands := by
  refine ⟨fun pin level => asmOne_encode _ pin, asmOne_encode .reset, asmOne_encode .getLevel,
    fun pin e opLine hmem => ?_, rfl, rfl, fun op pin v hop hpin => commandWord_toNat hop hpin v⟩
  simp only [List.mem_cons, List.not_mem_nil, or_false] at hmem
  rcases hmem with rfl | rfl | rfl | rfl | rfl
  · exact asmTwo_encode .setPullup pin e
  · exact asmTwo_encode .setPulldown pin e
  · exact asmTwo_encode .setInputEnable pin e
  · exact asmTwo_encode .setOutputEnable pin e
  · exact asmTwo_encode .setOpenDrain pin e

/-! The result of an operation (R73). -/

/-- The operation's checks pass: its pin is in range and bonded, and mapped where it touches IO_MUX (R98). -/
def ChecksPass (p : Params) (i : Instr) : Prop :=
  ∀ pin, pinOf i = some pin → ∃ n : Pin, n.val = pin ∧ p.bonded.get n = true ∧
    (touchesIoMux i = true → isMapped p n = true)

theorem ChecksPass.checkPin {p : Params} {i : Instr} {pin : Nat} (h : ChecksPass p i) (hi : pinOf i = some pin) :
    ∃ n, checkPin p pin = .ok n := by
  obtain ⟨n, rfl, hb, -⟩ := h pin hi
  exact ⟨n, checkPin_ok hb⟩

theorem ChecksPass.checkMuxPin {p : Params} {i : Instr} {pin : Nat} (h : ChecksPass p i) (hi : pinOf i = some pin)
    (ht : touchesIoMux i = true) : ∃ n, checkMuxPin p pin = .ok n := by
  obtain ⟨n, rfl, hb, hm⟩ := h pin hi
  exact ⟨n, checkMuxPin_ok hb (hm ht)⟩

/-- Where the checks of a pull pass, it returns STATUS_OK or the LP controller's status (R103, R104). -/
theorem planPull_plan {p : Params} {i : Instr} {pin : Nat} {n : Pin} (h : checkMuxPin p pin = .ok n)
    (hi : ∀ v, resultKindOk i (.status v) = true) (prim : LpPrim) (k : BitIndex) (en : Bool) :
    ∃ plan, planPull p prim k pin en = .ok plan ∧ ∀ got, resultKindOk i (finishResult plan.finish got) = true := by
  simp only [planPull, h]
  split
  · exact ⟨_, rfl, fun _ => hi _⟩
  · exact ⟨_, rfl, fun _ => hi _⟩

/-- An operation whose checks pass has a plan, and that ends with a result of the operation's kind. -/
theorem ChecksPass.plan {p : Params} {i : Instr} (h : ChecksPass p i) :
    ∃ plan, planOf p i = .ok plan ∧ ∀ got, resultKindOk i (finishResult plan.finish got) = true := by
  cases i with
  | reset pin =>
    obtain ⟨n, hn⟩ := h.checkMuxPin rfl rfl
    simp only [planOf, planReset, hn]
    exact ⟨_, rfl, fun _ => rfl⟩
  | setPullup pin en =>
    obtain ⟨n, hn⟩ := h.checkMuxPin rfl rfl
    exact planPull_plan hn (fun _ => rfl) .pullup p.puBit en
  | setPulldown pin en =>
    obtain ⟨n, hn⟩ := h.checkMuxPin rfl rfl
    exact planPull_plan hn (fun _ => rfl) .pulldown p.pdBit en
  | setInputEnable pin en =>
    obtain ⟨n, hn⟩ := h.checkMuxPin rfl rfl
    simp only [planOf, planSetInputEnable, hn]
    exact ⟨_, rfl, fun _ => rfl⟩
  | setOutputEnable pin en =>
    obtain ⟨n, hn⟩ := h.checkPin rfl
    simp only [planOf, planSetOutputEnable, hn]
    exact ⟨_, rfl, fun _ => rfl⟩
  | setOpenDrain pin en =>
    obtain ⟨n, hn⟩ := h.checkPin rfl
    simp only [planOf, planSetOpenDrain, hn]
    exact ⟨_, rfl, fun _ => rfl⟩
  | setLevel pin level =>
    obtain ⟨n, hn⟩ := h.checkPin rfl
    simp only [planOf, planSetLevel, hn]
    exact ⟨_, rfl, fun _ => rfl⟩
  | getLevel pin =>
    obtain ⟨n, hn⟩ := h.checkPin rfl
    simp only [planOf, planGetLevel, hn]
    exact ⟨_, rfl, fun _ => rfl⟩
  | getAllInputs => exact ⟨_, rfl, fun _ => rfl⟩
  | getAllOutputs => exact ⟨_, rfl, fun _ => rfl⟩

/-- Settles O9: the plan's micro-steps keep the records, and its completion appends the result. -/
theorem operationsReturnOneResult : Obligations.OperationsReturnOneResult := by
  intro i s ha hc
  obtain ⟨plan, hp, hkind⟩ := ChecksPass.plan (p := s.params) hc
  obtain ⟨u, got, hk, hrun⟩ := runSteps_answers (f := plan.finish) (planOf_legal hp).1 []
  have hself := (complete_moverBecomes hk ha (finishResult plan.finish got)).self
  refine ⟨_, _, by rw [exec_eq_operate, hp]; exact hrun, hkind got, ?_, ?_, by rw [hself]; rfl, by rw [hself]; rfl⟩
  · rw [complete_fault, hk.fault]
  · rw [complete_refused, hk.refused]

/-! Examples of the spec (R84, and section 3.1 of 95_test_vectors.md). -/

/-- Settles O5. -/
theorem assemblyExamples : Obligations.AssemblyExamples := by
  unfold Obligations.AssemblyExamples
  decide

/-- Settles O6. -/
theorem vectorWordsDecode : Obligations.VectorWordsDecode := by
  unfold Obligations.VectorWordsDecode
  decide

end Sys2Proof.Proofs.Encoding
end

section
/-! The decoder family (40_decoder.md): where a pin resolves to, and the faults of the pin checks in their order. -/

namespace Sys2Proof.Proofs.Decoder

open Sys2Proof Sys2Proof.Machine

/-! The bank and the bit of a pin (R87 to R90). -/

theorem bitMask_toNat (k : BitIndex) : (bitMask k).toNat = 2 ^ k.val :=
  BitVec.toNat_twoPow_of_lt k.isLt

/-- Settles O7. -/
theorem resolveSplitsAtBoundary : Obligations.ResolveSplitsAtBoundary := by
  intro n
  refine ⟨fun hlo => ?_, fun hhi => ?_, Nat.le_of_lt_succ (bitOf n).isLt, bitMask_toNat (bitOf n)⟩
  · exact ⟨by rw [resolve, bankOf_low hlo], bitOf_low hlo⟩
  · have hbank : bankOf n = .hi := bankOf_high hhi.not_gt
    exact ⟨by rw [resolve, hbank], bitOf_high hhi.not_gt, Nat.le_of_lt_succ (bitOf_lt_eight hbank)⟩

/-! The checks before an operation's first access (R85, R86, R92, R96). -/

theorem checkPin_outOfRange (p : Params) {pin : Nat} (h : 40 ≤ pin) : checkPin p pin = .error (.pinOutOfRange pin) :=
  dif_neg h.not_gt

theorem checkPin_notBonded {p : Params} {n : Pin} (h : p.bonded.get n = false) :
    checkPin p n.val = .error (.pinNotBonded n.val) := by
  rw [checkPin, dif_pos n.isLt, if_neg (by simp [h])]

/-- The IO_MUX check comes after the other two (R96). -/
theorem checkMuxPin_of_checkPin_error {p : Params} {pin : Nat} {e : FaultReason} (h : checkPin p pin = .error e) :
    checkMuxPin p pin = .error e := by
  rw [checkMuxPin, h]

theorem checkMuxPin_unmapped {p : Params} {n : Pin} (hb : p.bonded.get n = true) (hm : p.ioMuxOffset.get n = none) :
    checkMuxPin p n.val = .error (.ioMuxUnmapped n.val) := by
  simp [checkMuxPin, checkPin_ok hb, isMapped, hm]

/-- The checks the table of R98 lists for an operation on a pin. -/
def pinCheck (p : Params) (i : Instr) (pin : Nat) : Except FaultReason Pin :=
  if touchesIoMux i then checkMuxPin p pin else checkPin p pin

/-- R85 and R86 fail an operation in the same way whether it touches IO_MUX or not. -/
theorem pinCheck_of_checkPin_error {p : Params} {pin : Nat} {e : FaultReason} (i : Instr)
    (h : checkPin p pin = .error e) : pinCheck p i pin = .error e := by
  rw [pinCheck, checkMuxPin_of_checkPin_error h, h, ite_self]

/-- The plan of an operation with a pin begins with the operation's pin checks, and ends where they fail. -/
theorem planOf_of_pinCheck_error {p : Params} {i : Instr} {pin : Nat} {e : FaultReason} (hi : pinOf i = some pin)
    (h : pinCheck p i pin = .error e) : planOf p i = .error e := by
  cases i with
  | getAllInputs | getAllOutputs => cases hi
  | reset pin' | setPullup pin' en | setPulldown pin' en | setInputEnable pin' en =>
    cases hi
    have hcheck : checkMuxPin p pin = .error e := h
    simp only [planOf, planReset, planSetPullup, planSetPulldown, planPull, planSetInputEnable, hcheck]
  | setOutputEnable pin' en | setOpenDrain pin' en | setLevel pin' level | getLevel pin' =>
    cases hi
    have hcheck : checkPin p pin = .error e := h
    simp only [planOf, planSetOutputEnable, planSetOpenDrain, planSetLevel, planGetLevel, hcheck]

/-- An operation whose pin checks fail raises their fault and does nothing else (R96, R137). -/
theorem exec_of_pinCheck_error {i : Instr} {pin : Nat} {s : State} {e : FaultReason} (hi : pinOf i = some pin)
    (h : pinCheck s.params i pin = .error e) : exec i s = .next (raiseFault e s) := by
  rw [exec_eq_operate, planOf_of_pinCheck_error hi h, operate]

/-- Settles O8: each clause names the first of the operation's pin checks that fails. -/
theorem pinChecksFaultInOrder : Obligations.PinChecksFaultInOrder := by
  intro i pin s hi
  refine ⟨fun hpin => ?_, fun n hn hb => ?_, fun n hn hb ht hm => ?_⟩
  · exact exec_of_pinCheck_error hi (pinCheck_of_checkPin_error i (checkPin_outOfRange s.params hpin))
  · subst hn
    exact exec_of_pinCheck_error hi (pinCheck_of_checkPin_error i (checkPin_notBonded hb))
  · subst hn
    exact exec_of_pinCheck_error hi ((if_pos ht).trans (checkMuxPin_unmapped hb hm))

end Sys2Proof.Proofs.Decoder
end

section
/-! The pin configuration family (41_pin_config.md): the plan of each operation, an operation run whole as an
equation, the read-modify-write of one bit, and which operations call the low-power controller. -/

namespace Sys2Proof.Proofs.PinConfig

open Sys2Proof Sys2Proof.Machine Sys2Proof.Proofs.MachineState Sys2Proof.Proofs.Memory

/-! Plans (R101 to R107, R116 to R121). -/

section
variable {p : Params} {n : Pin}

theorem planOf_reset (hb : p.bonded.get n = true) (hmap : isMapped p n = true) :
    planOf p (.reset n.val) =
      .ok ⟨(if p.lpCapable.get n then releaseSteps n else []) ++ defaultSteps p n ++ setLevelSteps n false, .ok⟩ := by
  simp only [planOf, planReset, checkMuxPin_ok hb hmap]

theorem planPull_delegated (hb : p.bonded.get n = true) (hmap : isMapped p n = true)
    (hlp : p.lpCapable.get n = true) (prim : LpPrim) (k : BitIndex) (en : Bool) :
    planPull p prim k n.val en = .ok ⟨[.call prim n (some en)], .verbatim⟩ := by
  simp only [planPull, checkMuxPin_ok hb hmap, hlp, if_true]

theorem planOf_setPulldown (hb : p.bonded.get n = true) (hmap : isMapped p n = true)
    (hlp : p.lpCapable.get n = false) (en : Bool) :
    planOf p (.setPulldown n.val en) = .ok (modifyBit (.ioMux n) p.pdBit en) := by
  simp [planOf, planSetPulldown, planPull, checkMuxPin_ok hb hmap, hlp]

/-- The micro-steps of a pull are one LP call on an LP-capable pin, and a read and a write on any other. -/
theorem planPull_length (hb : p.bonded.get n = true) (hmap : isMapped p n = true) (prim : LpPrim) (k : BitIndex)
    (en : Bool) :
    ∃ plan, planPull p prim k n.val en = .ok plan ∧ plan.steps.length = if p.lpCapable.get n then 1 else 2 := by
  simp only [planPull, checkMuxPin_ok hb hmap]
  split
  · exact ⟨_, rfl, rfl⟩
  · exact ⟨_, rfl, rfl⟩

theorem planOf_setOpenDrain (hb : p.bonded.get n = true) (en : Bool) :
    planOf p (.setOpenDrain n.val en) = .ok (modifyBit (.pinConfig n) p.odBit en) := by
  simp only [planOf, planSetOpenDrain, checkPin_ok hb]

theorem planOf_setOutputEnable (hb : p.bonded.get n = true) (en : Bool) :
    planOf p (.setOutputEnable n.val en) = .ok ⟨[.write (enablePort (bankOf n) en) (pinMask n)], .ok⟩ := by
  simp only [planOf, planSetOutputEnable, checkPin_ok hb]

theorem planOf_getLevel (hb : p.bonded.get n = true) :
    planOf p (.getLevel n.val) = .ok ⟨[.read (.input (bankOf n))], .inputBit (bitOf n)⟩ := by
  simp only [planOf, planGetLevel, checkPin_ok hb]

end

/-- Settles O45. -/
theorem microStepsInOrder : Obligations.MicroStepsInOrder := by
  intro p n v hb hmap
  refine ⟨⟨_, planOf_reset hb hmap, ?_⟩, planPull_length hb hmap .pullup p.puBit v,
    planPull_length hb hmap .pulldown p.pdBit v, ⟨_, planOf_setInputEnable hb hmap v, rfl⟩,
    ⟨_, planOf_setOpenDrain hb v, rfl⟩, ⟨_, planOf_setOutputEnable hb v, rfl⟩, ⟨_, planOf_setLevel hb v, rfl⟩,
    ⟨_, planOf_getLevel hb, rfl⟩, ⟨_, rfl, rfl⟩, ⟨_, rfl, rfl⟩⟩
  exact List.append_assoc _ _ _

/-! Whole operations, as equations (R101, R103, R104, R117, R121). -/

theorem exec_of_plan {i : Instr} {s : State} {plan : Plan} (hp : planOf s.params i = .ok plan) :
    exec i s = runSteps plan.finish plan.steps [] s := by
  rw [exec_eq_operate, hp, operate]

/-- A delegated pull is one LP call, and its status is the result (R103, R104, R142). -/
theorem exec_delegated {i : Instr} {s : State} {prim : LpPrim} {n : Pin} {en : Bool}
    (hp : planOf s.params i = .ok ⟨[.call prim n (some en)], .verbatim⟩) :
    exec i s = .next (complete (.status (lpAnswer s)) (lpCall prim n (some en) s)) := by
  rw [exec_of_plan hp]
  rfl

/-- A whole operation of one write. -/
theorem exec_write {i : Instr} {s t : State} {r : Reg} {v : Word} (hp : planOf s.params i = .ok ⟨[.write r v], .ok⟩)
    (hw : writeReg r v s = .next t) : exec i s = .next (complete (.status Config.statusOk) t) := by
  rw [exec_of_plan hp]
  simp only [runSteps, perform, hw, andThen_of_next, finishResult]

/-- GET_ALL_OUTPUTS reads OUT[LO], then OUT[HI] (R121). -/
theorem exec_getAllOutputs (s : State) :
    exec .getAllOutputs s =
      .next (complete (.word64 (concat64 (readStored s.out .hi (drawn s)) s.out.lo)) (drawn (drawn s))) := rfl

/-- Settles O19. -/
theorem pullOnLpCapablePinIsDelegated : Obligations.PullOnLpCapablePinIsDelegated := by
  intro s n en hb hmap hlp
  exact ⟨exec_delegated (planPull_delegated hb hmap hlp .pullup s.params.puBit en),
    exec_delegated (planPull_delegated hb hmap hlp .pulldown s.params.pdBit en)⟩

/-! RESET (R101, R102). -/

/-- The state after the three calls that release an LP-capable pin. -/
def released (n : Pin) (s : State) : State :=
  lpCall .pulldown n (some false) (lpCall .pullup n (some true) (lpCall .detach n none s))

/-- The state after the digital defaults and the output level. -/
def defaulted (n : Pin) (s : State) : State :=
  { s with
    pinConfig := putPin s.pinConfig n Config.pinConfigCleared
    funcSel := putPin s.funcSel n s.params.funcSelDisconnected
    ioMux := putPin s.ioMux n s.params.ioMuxDefault
    inHold := putPin s.inHold n (Config.holdBit s.draws)
    out := bankSet s.out (bankOf n) (bankGet s.out (bankOf n) &&& ~~~pinMask n)
    draws := s.draws + 1 }

/-- The release comes first; what it returns stays with the operation. -/
theorem runSteps_release (f : Finish) (n : Pin) (ms : List MicroStep) (got : List Word) (s : State) :
    ∃ got', runSteps f (releaseSteps n ++ ms) got s = runSteps f ms got' (released n s) := ⟨_, rfl⟩

/-- The four writes end in STATUS_OK, whatever the operation got before (92_eei_decisions.md D25). -/
theorem runSteps_defaults {n : Pin} {s : State} (hmap : isMapped s.params n = true) (got : List Word) :
    runSteps .ok (defaultSteps s.params n ++ setLevelSteps n false) got s =
      .next (complete (.status Config.statusOk) (defaulted n s)) := by
  have hmux (x y : PinTable Word) (v : Word) :
      writeReg (.ioMux n) v { s with pinConfig := x, funcSel := y } =
        .next (writeIoMux n v { s with pinConfig := x, funcSel := y }) :=
    writeReg_ioMux (s := { s with pinConfig := x, funcSel := y }) hmap v
  simp only [defaultSteps, setLevelSteps, List.cons_append, List.nil_append, runSteps, perform, writeReg_pinConfig,
    writeReg_funcSel, hmux, andThen_of_next]
  rfl

theorem released_keepsRecords (n : Pin) (s : State) : KeepsRecords s (released n s) :=
  ⟨rfl, _, by simp only [released, lpCall_lpLog, List.append_assoc]; rfl⟩

theorem defaulted_keepsRecords (n : Pin) (s : State) : KeepsRecords s (defaulted n s) :=
  ⟨rfl, [], (List.append_nil _).symm⟩

/-- RESET releases an LP-capable pin, and then gives any pin its defaults (R101). -/
theorem exec_reset {s : State} {n : Pin} (hb : s.params.bonded.get n = true) (hmap : isMapped s.params n = true) :
    exec (.reset n.val) s = .next (complete (.status Config.statusOk)
      (defaulted n (if s.params.lpCapable.get n then released n s else s))) := by
  rw [exec_of_plan (planOf_reset hb hmap)]
  cases s.params.lpCapable.get n with
  | true =>
    obtain ⟨got, hrel⟩ := runSteps_release .ok n (defaultSteps s.params n ++ setLevelSteps n false) [] s
    rw [if_pos rfl, if_pos rfl, List.append_assoc, hrel]
    exact runSteps_defaults (s := released n s) hmap got
  | false => exact runSteps_defaults hmap []

/-- Settles O18, by whether the pin is LP-capable. -/
theorem resetLeavesSafeState : Obligations.ResetLeavesSafeState := by
  intro s n hb hmap
  rw [exec_reset hb hmap]
  cases s.params.lpCapable.get n with
  | true => simp [defaulted, released, lpAnswer, pinMask, bitMask, Config.statusOk, Config.pinConfigCleared]
  | false => simp [defaulted, pinMask, bitMask, Config.statusOk, Config.pinConfigCleared]

/-- The write of RESET's output level leaves the pin's OUT bit 0. -/
theorem defaulted_out_getLsbD (n : Pin) (s : State) :
    (bankGet (defaulted n s).out (bankOf n)).getLsbD (bitOf n).val = false := by
  simp [defaulted, pinMask]

/-- Bit n of the word GET_ALL_OUTPUTS returns is the pin's stored OUT bit (R24, R33, R121). -/
theorem outputSnapshot_getLsbD (s t : State) (n : Pin) :
    (concat64 (readStored s.out .hi t) s.out.lo).getLsbD n.val =
      (bankGet s.out (bankOf n)).getLsbD (bitOf n).val := by
  rw [concat64_getLsbD]
  by_cases hn : n.val < 32
  · rw [if_pos hn, bankOf_low hn]
    rfl
  · have hbank : bankOf n = .hi := bankOf_high hn
    rw [if_neg hn, hbank, readStored_getLsbD s.out .hi t _ (bitOf_lt_eight hbank)]

/-- A SET_LEVEL of a bonded pin by any agent leaves the pin's OUT bit at the level (R117). -/
theorem exec_setLevel_out {s : State} {n : Pin} (hb : s.params.bonded.get n = true) (level : Bool) :
    ∃ t, exec (.setLevel n.val level) s = .next t ∧ (bankGet t.out (bankOf n)).getLsbD (bitOf n).val = level := by
  obtain ⟨u, hu, hbit⟩ := writeReg_levelPort n level s
  exact ⟨_, exec_write (planOf_setLevel hb level) hu, by rw [complete_out, hbit]⟩

/-- RESET keeps the records up to its completion, and leaves the pin's OUT bit 0. -/
theorem exec_reset_clears_out {s : State} {n : Pin} (hb : s.params.bonded.get n = true)
    (hmap : isMapped s.params n = true) :
    ∃ x, exec (.reset n.val) s = .next (complete (.status Config.statusOk) x) ∧ KeepsRecords s x ∧
      (bankGet x.out (bankOf n)).getLsbD (bitOf n).val = false := by
  refine ⟨_, exec_reset hb hmap, .trans ?_ (defaulted_keepsRecords n _), defaulted_out_getLsbD n _⟩
  split
  · exact released_keepsRecords n s
  · exact .refl s

/-- GET_ALL_OUTPUTS returns a word whose bit n is the stored OUT bit of pin n. -/
theorem exec_getAllOutputs_result {s : State} (ha : agentExists s s.mover = true) :
    ∃ t w, exec .getAllOutputs s = .next t ∧
      (callerOf t s.mover).results = (callerOf s s.mover).results ++ [.word64 w] ∧
      ∀ n : Pin, w.getLsbD n.val = (bankGet s.out (bankOf n)).getLsbD (bitOf n).val := by
  have hk : KeepsRecords s (drawn (drawn s)) := ⟨rfl, [], by simp⟩
  exact ⟨_, _, exec_getAllOutputs s, by rw [(complete_moverBecomes hk ha _).self]; rfl, outputSnapshot_getLsbD s _⟩

/-- Settles O25: the snapshot's bit is the stored bit, which RESET cleared and SET_LEVEL sets. -/
theorem resetOutputReadsBackZero : Obligations.ResetOutputReadsBackZero := by
  intro s n ha hb hmap
  obtain ⟨x, hreset, hk, hbit⟩ := exec_reset_clears_out hb hmap
  have hm := complete_moverBecomes hk ha (.status Config.statusOk)
  set t := complete (.status Config.statusOk) x with ht
  have hclear : (bankGet t.out (bankOf n)).getLsbD (bitOf n).val = false := by rw [ht, complete_out, hbit]
  obtain ⟨u, w, hu, hres, hw⟩ := exec_getAllOutputs_result (s := t) (by rw [hm.agents, hm.mover, ha])
  rw [hm.mover] at hres
  exact ⟨t, u, w, hreset, hclear, hu, hres, (hw n).trans hclear,
    fun a => exec_setLevel_out (s := { t with mover := a }) (hm.params ▸ hb) true⟩

/-! The read-modify-write of one bit (R57, R108). -/

/-- A register of a pin that an operation can edit under the parameters p: a read returns what it contains and
changes nothing, a write stores the value, and no record of an agent is part of it. -/
structure Editable (p : Params) (r : Reg) (contents : State → Word) : Prop where
  read : ∀ s, s.params = p → readReg r s = .next (contents s, s)
  write : ∀ s v, s.params = p → ∃ t, writeReg r v s = .next t ∧ contents t = v
  records : ∀ s t, RecordUpdate s t → contents t = contents s

theorem ioMux_editable {p : Params} {n : Pin} (hmap : isMapped p n = true) :
    Editable p (.ioMux n) fun s => s.ioMux.get n where
  read s hs := readReg_ioMux (hs ▸ hmap)
  write s v hs := ⟨_, writeReg_ioMux (hs ▸ hmap) v, by simp⟩
  records s t h := by rw [h]

theorem pinConfig_editable (p : Params) (n : Pin) : Editable p (.pinConfig n) fun s => s.pinConfig.get n where
  read s _ := readReg_pinConfig n s
  write s v _ := ⟨_, writeReg_pinConfig n v s, by simp⟩
  records s t h := by rw [h]

section
variable {s t : State} {i : Instr} {r : Reg} {k : BitIndex} {en : Bool} {w : Word} {contents : State → Word}

/-- The first read of an operation. -/
theorem perform_read_of_readReg (hr : readReg r s = .next (w, t)) : perform (.read r) [] s = .next ([w], t) := by
  rw [perform, hr, andThen_of_next, List.nil_append]

/-- The write-back of an operation that read w. -/
theorem perform_writeBack_of_read (hw : writeReg r (editBit w k en) s = .next t) :
    perform (.writeBack r k en) [w] s = .next ([w], t) := by
  have hlast : [w].getLastD 0 = w := rfl
  rw [perform, hlast, hw, andThen_of_next]

/-- A read-modify-write run whole writes back the value it read, with the one bit edited. -/
theorem exec_modifyBit (hp : planOf s.params i = .ok (modifyBit r k en)) (hr : readReg r s = .next (w, s))
    (hw : writeReg r (editBit w k en) s = .next t) : exec i s = .next (complete (.status Config.statusOk) t) := by
  rw [exec_of_plan hp]
  simp only [modifyBit, runSteps, perform_read_of_readReg hr, perform_writeBack_of_read hw, andThen_of_next,
    finishResult]

/-- The first micro-step of a read-modify-write is its read, and the operation keeps the value. -/
theorem runMicroStep_read {cw : CmdWord} (hn : (callerOf s s.mover).inFlight = none) (hf : fetch s = some cw)
    (hd : decode cw = .ok i) (hp : planOf s.params i = .ok (modifyBit r k en)) (hr : readReg r s = .next (w, s)) :
    runMicroStep s = .next (setInFlight (some ⟨[.writeBack r k en], .ok, [w]⟩) s) := by
  simp only [runMicroStep, hn, hf, hd, hp, startOperation, modifyBit, advance_cons, perform_read_of_readReg hr,
    andThen_of_next]

/-- The second micro-step writes that value with the one bit edited, whatever the register holds by then. -/
theorem runMicroStep_writeBack (hi : (callerOf s s.mover).inFlight = some ⟨[.writeBack r k en], .ok, [w]⟩)
    (hw : writeReg r (editBit w k en) s = .next t) :
    runMicroStep s = .next (complete (.status Config.statusOk) t) := by
  simp only [runMicroStep, hi, advance_last, perform_writeBack_of_read hw, andThen_of_next, finishResult]

/-- The bits of the register at the completion of a read-modify-write. -/
theorem Editable.complete_getLsbD (hr : Editable s.params r contents) (ht : contents t = editBit w k en) (x : Result)
    (j : BitIndex) : (contents (complete x t)).getLsbD j.val = if j = k then en else w.getLsbD j.val := by
  rw [hr.records t _ (complete_recordUpdate x t), ht, editBit_getLsbD]
  simp only [eq_comm]

/-- A read-modify-write run whole changes at most the one bit of its register. -/
theorem exec_editsOneBit (hr : Editable s.params r contents) (hp : planOf s.params i = .ok (modifyBit r k en)) :
    ∃ t, exec i s = .next t ∧
      ∀ j : BitIndex, (contents t).getLsbD j.val = if j = k then en else (contents s).getLsbD j.val := by
  obtain ⟨t, hw, ht⟩ := hr.write s (editBit (contents s) k en) rfl
  exact ⟨_, exec_modifyBit hp (hr.read s rfl) hw, hr.complete_getLsbD ht _⟩

/-- The write of a read-modify-write differs from its read in at most the one bit, whatever other agents do between
them that leaves in the register what was read (R108). -/
theorem runMicroStep_editsOneBit (hr : Editable s.params r contents) (ha : agentExists s s.mover = true)
    (hp : planOf s.params i = .ok (modifyBit r k en)) (cw : CmdWord) (hn : (callerOf s s.mover).inFlight = none)
    (hf : fetch s = some cw) (hd : decode cw = .ok i) :
    ∃ t, runMicroStep s = .next t ∧ contents t = contents s ∧
      ∀ u, u.mover = s.mover → u.params = s.params → callerOf u u.mover = callerOf t s.mover →
        contents u = contents s → ∃ v, runMicroStep u = .next v ∧
          ∀ j : BitIndex, (contents v).getLsbD j.val = if j = k then en else (contents s).getLsbD j.val := by
  refine ⟨_, runMicroStep_read hn hf hd hp (hr.read s rfl), hr.records _ _ (setInFlight_recordUpdate _ s),
    fun u _ hup huc _ => ?_⟩
  rw [(setInFlight_moverBecomes (.refl s) ha _).self] at huc
  obtain ⟨v, hw, hv⟩ := hr.write u (editBit (contents s) k en) hup
  exact ⟨_, runMicroStep_writeBack (by rw [huc]) hw, hr.complete_getLsbD hv _⟩

end

/-- A read-modify-write of IO_MUX(n), run whole. -/
theorem exec_modifyIoMux {s : State} {i : Instr} {n : Pin} {k : BitIndex} {en : Bool}
    (hmap : isMapped s.params n = true) (hp : planOf s.params i = .ok (modifyBit (.ioMux n) k en)) :
    exec i s =
      .next (complete (.status Config.statusOk) (writeIoMux n (editBit (s.ioMux.get n) k en) s)) :=
  exec_modifyBit hp (readReg_ioMux hmap) (writeReg_ioMux hmap _)

/-- Settles O20. -/
theorem pullOnDigitalPinWritesIoMux : Obligations.PullOnDigitalPinWritesIoMux := by
  intro s n en hb hmap hlp
  exact ⟨exec_modifyIoMux hmap (planOf_setPullup hb hmap hlp en),
    exec_modifyIoMux hmap (planOf_setPulldown hb hmap hlp en)⟩

/-- Settles O21. -/
theorem setInputEnableWritesIoMux : Obligations.SetInputEnableWritesIoMux := by
  intro s n en hb hmap
  exact exec_modifyIoMux hmap (planOf_setInputEnable hb hmap en)

/-- Settles O22. -/
theorem setOpenDrainWritesPinConfig : Obligations.SetOpenDrainWritesPinConfig := by
  intro s n en hb
  exact exec_modifyBit (planOf_setOpenDrain hb en) (readReg_pinConfig n s) (writeReg_pinConfig n _ s)

/-- Settles O23. -/
theorem configurationKeepsOtherBits : Obligations.ConfigurationKeepsOtherBits := by
  intro s n en hb
  exact ⟨fun hmap hlp => exec_editsOneBit (ioMux_editable hmap) (planOf_setPullup hb hmap hlp en),
    fun hmap hlp => exec_editsOneBit (ioMux_editable hmap) (planOf_setPulldown hb hmap hlp en),
    fun hmap => exec_editsOneBit (ioMux_editable hmap) (planOf_setInputEnable hb hmap en),
    exec_editsOneBit (pinConfig_editable s.params n) (planOf_setOpenDrain hb en)⟩

/-- Settles O57. -/
theorem readModifyWriteKeepsOtherBits : Obligations.ReadModifyWriteKeepsOtherBits := by
  intro s n en ha hb
  exact ⟨fun hmap hlp => ⟨runMicroStep_editsOneBit (ioMux_editable hmap) ha (planOf_setPullup hb hmap hlp en),
      runMicroStep_editsOneBit (ioMux_editable hmap) ha (planOf_setPulldown hb hmap hlp en)⟩,
    fun hmap => runMicroStep_editsOneBit (ioMux_editable hmap) ha (planOf_setInputEnable hb hmap en),
    runMicroStep_editsOneBit (pinConfig_editable s.params n) ha (planOf_setOpenDrain hb en)⟩

/-! The two pulls together (R105). -/

/-- Edits of two different bits commute. -/
theorem editBit_comm {j k : BitIndex} (hjk : j ≠ k) (w : Word) (a b : Bool) :
    editBit (editBit w j a) k b = editBit (editBit w k b) j a := by
  refine BitVec.eq_of_getLsbD_eq fun i hi => ?_
  have hbit (v : Word) (m : BitIndex) (c : Bool) := editBit_getLsbD v m ⟨i, hi⟩ c
  simp only [hbit]
  by_cases hk : k = ⟨i, hi⟩
  · rw [if_pos hk, if_neg (hk ▸ hjk), if_pos hk]
  · rw [if_neg hk, if_neg hk]

/-- R9 item 1: the two pull bits are different. -/
theorem puBit_ne_pdBit {p : Params} (h : p.wellFormed = true) : p.puBit ≠ p.pdBit := by
  obtain ⟨hbits, -⟩ := Scope.wellFormed_iff.1 h
  simp only [Params.bitsDistinct, Bool.and_eq_true, bne_iff_ne] at hbits
  obtain ⟨⟨hne, -⟩, -⟩ := hbits
  exact hne

/-- Two edits of IO_MUX(n), one operation after the other. -/
theorem exec_modifyIoMux_twice {s : State} {i i' : Instr} {n : Pin} {k k' : BitIndex} {en en' : Bool}
    (hmap : isMapped s.params n = true) (hp : planOf s.params i = .ok (modifyBit (.ioMux n) k en))
    (hp' : planOf s.params i' = .ok (modifyBit (.ioMux n) k' en')) :
    ∃ t u, exec i s = .next t ∧ exec i' t = .next u ∧ u.fault = s.fault ∧
      u.ioMux = putPin s.ioMux n (editBit (editBit (s.ioMux.get n) k en) k' en') := by
  set t := complete (.status Config.statusOk) (writeIoMux n (editBit (s.ioMux.get n) k en) s) with ht
  have hparams : t.params = s.params := by simp [ht]
  exact ⟨t, _, exec_modifyIoMux hmap hp, exec_modifyIoMux (hparams ▸ hmap) (hparams ▸ hp'), by simp [ht],
    by simp [ht]⟩

/-- Settles O24: the two bits are different, so their edits commute and keep each other. -/
theorem pullsAreIndependent : Obligations.PullsAreIndependent := by
  intro s n up down hw hb hmap hlp
  have hne := puBit_ne_pdBit hw
  have hup := planOf_setPullup hb hmap hlp up
  have hdown := planOf_setPulldown hb hmap hlp down
  obtain ⟨t, u, ht, hu, hfault, hmux⟩ := exec_modifyIoMux_twice hmap hup hdown
  obtain ⟨t', u', ht', hu', hfault', hmux'⟩ := exec_modifyIoMux_twice hmap hdown hup
  refine ⟨t, u, t', u', ht, hu, ht', hu', by rw [hmux, hmux', editBit_comm hne], hfault, hfault', ?_, ?_⟩
  · rw [hmux, get_putPin, if_pos rfl, editBit_getLsbD, if_neg hne.symm, editBit_getLsbD, if_pos rfl]
  · rw [hmux, get_putPin, if_pos rfl, editBit_getLsbD, if_pos rfl]

/-! Which operations call the low-power controller (R109). -/

/-- Whether a micro-step is an LpCall. -/
def callsLp : MicroStep → Bool
  | .call _ _ _ => true
  | .read _ => false
  | .write _ _ => false
  | .writeBack _ _ _ => false

/-- Only an LpCall writes LP_LOG (R38). -/
theorem perform_keeps_lpLog {m : MicroStep} {got got' : List Word} {s t : State} (hm : callsLp m = false)
    (h : perform m got s = .next (got', t)) : t.lpLog = s.lpLog := by
  cases m with
  | read r => rcases perform_read h with rfl | rfl <;> rfl
  | write r v => rw [writeReg_next (perform_write h)]
  | writeBack r k en => rw [writeReg_next (perform_writeBack h)]
  | call prim n en => cases hm

theorem microRun_keeps_lpLog {s t : State} (h : MicroRun (callsLp · = false) s t) : t.lpLog = s.lpLog := by
  induction h with
  | refl => rfl
  | tail _ hs ih =>
    obtain ⟨m, got, got', hm, hp⟩ := hs
    exact (perform_keeps_lpLog hm hp).trans ih

theorem modifyBit_noCall (r : Reg) (k : BitIndex) (en : Bool) :
    ∀ m ∈ (modifyBit r k en).steps, callsLp m = false := by
  simp [modifyBit, callsLp]

/-- The plan of a pull has no LpCall where the pin is not LP-capable. -/
theorem planPull_noCall {p : Params} {prim : LpPrim} {k : BitIndex} {pin : Nat} {en : Bool} {plan : Plan}
    (h : planPull p prim k pin en = .ok plan) (hlp : ∀ n : Pin, pin = n.val → p.lpCapable.get n = false) :
    ∀ m ∈ plan.steps, callsLp m = false := by
  unfold planPull at h
  split at h
  · cases h
  · rename_i n hc
    rw [hlp n (checkMuxPin_eq_ok hc).1.symm, if_neg Bool.false_ne_true] at h
    cases h
    exact modifyBit_noCall _ k en

/-- The plan of RESET has no LpCall where the pin is not LP-capable. -/
theorem planReset_noCall {p : Params} {pin : Nat} {plan : Plan} (h : planReset p pin = .ok plan)
    (hlp : ∀ n : Pin, pin = n.val → p.lpCapable.get n = false) : ∀ m ∈ plan.steps, callsLp m = false := by
  unfold planReset at h
  split at h
  · cases h
  · rename_i n hc
    rw [hlp n (checkMuxPin_eq_ok hc).1.symm, if_neg Bool.false_ne_true] at h
    cases h
    simp [defaultSteps, setLevelSteps, callsLp]

/-- The plan of an operation that does not hand off has no LpCall. -/
theorem planOf_noCall {p : Params} {i : Instr} {plan : Plan} (hi : handsOff i = false) (h : planOf p i = .ok plan) :
    ∀ m ∈ plan.steps, callsLp m = false := by
  cases i with
  | reset pin | setPullup pin en | setPulldown pin en => cases hi
  | setInputEnable pin en =>
    simp only [planOf, planSetInputEnable] at h
    split at h <;> cases h
    exact modifyBit_noCall _ _ en
  | setOpenDrain pin en =>
    simp only [planOf, planSetOpenDrain] at h
    split at h <;> cases h
    exact modifyBit_noCall _ _ en
  | setOutputEnable pin v | setLevel pin v | getLevel pin =>
    simp only [planOf, planSetOutputEnable, planSetLevel, planGetLevel] at h
    split at h <;> cases h
    simp [setLevelSteps, callsLp]
  | getAllInputs | getAllOutputs =>
    cases h
    simp [callsLp]

theorem planOf_noCall_of_digital {p : Params} {i : Instr} {plan : Plan}
    (hlp : ∀ n : Pin, pinOf i = some n.val → p.lpCapable.get n = false) (h : planOf p i = .ok plan) :
    ∀ m ∈ plan.steps, callsLp m = false := by
  cases i with
  | reset pin => exact planReset_noCall h fun n hn => hlp n (congrArg some hn)
  | setPullup pin en | setPulldown pin en => exact planPull_noCall h fun n hn => hlp n (congrArg some hn)
  | _ => exact planOf_noCall rfl h

/-- Settles O26: an operation whose plan has no LpCall writes LP_LOG nowhere. -/
theorem onlyResetAndPullsHandOff : Obligations.OnlyResetAndPullsHandOff := by
  intro i s t h hi
  have hplan (plan : Plan) (hp : planOf s.params i = .ok plan) : ∀ m ∈ plan.steps, callsLp m = false :=
    hi.elim (planOf_noCall · hp) (planOf_noCall_of_digital · hp)
  rw [exec_eq_operate] at h
  obtain ⟨u, hrun, hu⟩ := operate_microRun hplan h
  have hlog : t.lpLog = u.lpLog := by rw [hu]
  exact hlog.trans (microRun_keeps_lpLog hrun)

end Sys2Proof.Proofs.PinConfig
end

section
/-! The bank accessor family (42_bank_accessors.md): one pin's bit of a bank register, each accessor run whole as an
equation, and what the level operations leave unchanged. -/

namespace Sys2Proof.Proofs.BankAccess

open Sys2Proof Sys2Proof.Machine Sys2Proof.Proofs.MachineState Sys2Proof.Proofs.Memory
  Sys2Proof.Proofs.PinConfig

/-! One pin's bit of OUT or ENABLE (R24, R26, R46, R47, R87). -/

/-- The bank pair with the bit of one pin set or cleared. -/
def setPinBit (x : Banked Word) (n : Pin) (v : Bool) : Banked Word :=
  bankSet x (bankOf n) (editBit (bankGet x (bankOf n)) (bitOf n) v)

/-- The bits after one pin's bit is written: that bit is the value, every other bit of both banks is as before. -/
theorem setPinBit_getLsbD (x : Banked Word) (n : Pin) (v : Bool) (b : Bank) (k : BitIndex) :
    (bankGet (setPinBit x n v) b).getLsbD k.val =
      if bankOf n = b ∧ bitOf n = k then v else (bankGet x b).getLsbD k.val := by
  rw [setPinBit, bankGet_bankSet]
  by_cases hb : bankOf n = b
  · subst hb
    simp only [if_true, editBit_getLsbD, true_and]
  · simp only [hb, if_false, false_and]

theorem setPinBit_getLsbD_self (x : Banked Word) (n : Pin) (v : Bool) :
    (bankGet (setPinBit x n v) (bankOf n)).getLsbD (bitOf n).val = v := by
  rw [setPinBit_getLsbD, if_pos ⟨rfl, rfl⟩]

theorem banked_eq_of_getLsbD {x y : Banked Word}
    (h : ∀ (b : Bank) (k : BitIndex), (bankGet x b).getLsbD k.val = (bankGet y b).getLsbD k.val) : x = y := by
  have hbank (b : Bank) : bankGet x b = bankGet y b := BitVec.eq_of_getLsbD_eq fun i hi => h b ⟨i, hi⟩
  exact congrArg₂ Banked.mk (hbank .lo) (hbank .hi)

/-- Writes of two pins' bits commute: two pins never share a bit (R87). -/
theorem setPinBit_comm {m n : Pin} (hne : m ≠ n) (x : Banked Word) (a b : Bool) :
    setPinBit (setPinBit x m a) n b = setPinBit (setPinBit x n b) m a := by
  refine banked_eq_of_getLsbD fun c k => ?_
  simp only [setPinBit_getLsbD]
  by_cases hn : bankOf n = c ∧ bitOf n = k
  · have hm : ¬ (bankOf m = c ∧ bitOf m = k) := fun hm =>
      hne (resolve_injective (hm.1.trans hn.1.symm) (hm.2.trans hn.2.symm))
    rw [if_pos hn, if_neg hm, if_pos hn]
  · rw [if_neg hn, if_neg hn]

/-- Of two writes of one pin's bit the later one decides. -/
theorem setPinBit_setPinBit (x : Banked Word) (n : Pin) (a b : Bool) :
    setPinBit (setPinBit x n a) n b = setPinBit x n b := by
  refine banked_eq_of_getLsbD fun c k => ?_
  simp only [setPinBit_getLsbD]
  split <;> rfl

theorem pinMask_low {n : Pin} (h : n.val < 32) : pinMask n = 1#32 <<< n.val := by
  rw [pinMask, bitMask, bitOf_low h]

theorem pinMask_high {n : Pin} (h : 32 ≤ n.val) : pinMask n = 1#32 <<< (n.val - 32) := by
  rw [pinMask, bitMask, bitOf_high h.not_gt]

/-- Setting the bit of a pin below 32 is an OR into the low bank; the high bank is as before (R122). -/
theorem setPinBit_low {n : Pin} (h : n.val < 32) (x : Banked Word) :
    (setPinBit x n true).lo = x.lo ||| (1#32 <<< n.val) ∧ (setPinBit x n true).lo.getLsbD n.val = true ∧
      (setPinBit x n true).hi = x.hi := by
  have hbit := setPinBit_getLsbD_self x n true
  rw [bankOf_low h, bitOf_low h] at hbit
  have heq : setPinBit x n true = ⟨x.lo ||| pinMask n, x.hi⟩ := by rw [setPinBit, bankOf_low h]; rfl
  exact ⟨by rw [heq, pinMask_low h], hbit, by rw [heq]⟩

/-- Setting the bit of a pin from 32 on is an OR into the high bank; the low bank is as before (R122). -/
theorem setPinBit_high {n : Pin} (h : 32 ≤ n.val) (x : Banked Word) :
    (setPinBit x n true).hi = x.hi ||| (1#32 <<< (n.val - 32)) ∧
      (setPinBit x n true).hi.getLsbD (n.val - 32) = true ∧ (setPinBit x n true).lo = x.lo := by
  have hbit := setPinBit_getLsbD_self x n true
  rw [bankOf_high h.not_gt, bitOf_high h.not_gt] at hbit
  have heq : setPinBit x n true = ⟨x.lo, x.hi ||| pinMask n⟩ := by rw [setPinBit, bankOf_high h.not_gt]; rfl
  exact ⟨by rw [heq, pinMask_high h], hbit, by rw [heq]⟩

/-! Whole operations, as equations (R116, R117, R120). -/

theorem writeReg_levelPort_eq (n : Pin) (level : Bool) (s : State) :
    writeReg (levelPort (bankOf n) level) (pinMask n) s = .next { s with out := setPinBit s.out n level } := by
  cases level <;> rfl

theorem writeReg_enablePort_eq (n : Pin) (en : Bool) (s : State) :
    writeReg (enablePort (bankOf n) en) (pinMask n) s = .next { s with enable := setPinBit s.enable n en } := by
  cases en <;> rfl

section
variable {s : State} {n : Pin}

theorem exec_setOutputEnable (hb : s.params.bonded.get n = true) (en : Bool) :
    exec (.setOutputEnable n.val en) s =
      .next (complete (.status Config.statusOk) { s with enable := setPinBit s.enable n en }) :=
  exec_write (planOf_setOutputEnable hb en) (writeReg_enablePort_eq n en s)

theorem exec_setLevel (hb : s.params.bonded.get n = true) (level : Bool) :
    exec (.setLevel n.val level) s =
      .next (complete (.status Config.statusOk) { s with out := setPinBit s.out n level }) :=
  exec_write (planOf_setLevel hb level) (writeReg_levelPort_eq n level s)

end

theorem exec_getAllInputs (s : State) :
    exec .getAllInputs s =
      .next (complete (.word64 (concat64 (inputWord (drawn s) .hi) (inputWord s .lo))) (drawn (drawn s))) := rfl

/-- Settles O27. -/
theorem setOutputEnableWritesOneBit : Obligations.SetOutputEnableWritesOneBit := by
  intro s n en hb
  exact exec_setOutputEnable hb en

/-- Settles O28. -/
theorem setLevelWritesOneBit : Obligations.SetLevelWritesOneBit := by
  intro s n level hb
  exact exec_setLevel hb level

/-! The input of a pin (R35, R36, R49). -/

/-- The bit of IN that a pin resolves to is the pin's input (R49). -/
theorem inputBitAt_resolve (s : State) (n : Pin) :
    inputBitAt s (bankOf n) (bitOf n) =
      if s.params.bonded.get n = true ∧ (s.params.ioMuxOffset.get n).isSome = true then
        if (s.ioMux.get n).getLsbD s.params.ieBit.val = true then (Config.padLevel s.draws).getLsbD n.val
        else s.inHold.get n
      else (Config.anyWord s.draws).getLsbD (bitOf n).val := by
  have hiff : hasInput s.params n = true ↔
      s.params.bonded.get n = true ∧ (s.params.ioMuxOffset.get n).isSome = true := Bool.and_eq_true_iff
  simp only [inputBitAt, pinAt_resolve]
  by_cases h : s.params.bonded.get n = true ∧ (s.params.ioMuxOffset.get n).isSome = true
  · rw [if_pos (hiff.2 h), if_pos h, inputEnabled]
  · rw [if_neg (mt hiff.1 h), if_neg h]

/-- Bit n of a snapshot of IN is pin n's input at the read of its bank (R120). -/
theorem inputSnapshot_getLsbD (s t : State) (n : Pin) :
    (concat64 (inputWord t .hi) (inputWord s .lo)).getLsbD n.val =
      inputBitAt (if n.val < 32 then s else t) (bankOf n) (bitOf n) := by
  rw [concat64_getLsbD]
  by_cases hn : n.val < 32
  · rw [if_pos hn, if_pos hn, bankOf_low hn, inputWord_getLsbD]
  · rw [if_neg hn, if_neg hn, bankOf_high hn, inputWord_getLsbD]

/-- Settles O29. -/
theorem getLevelReadsInputBit : Obligations.GetLevelReadsInputBit := by
  intro s n hb
  rw [exec_getLevel hb, inputBitAt_resolve]
  simp only [hb, true_and]
  rfl

/-- Settles O30: the second read finds the state of the first, but for the draw counter. -/
theorem getAllInputsReadsBothBanks : Obligations.GetAllInputsReadsBothBanks := by
  refine fun s => ⟨_, exec_getAllInputs s, fun n => ?_⟩
  rw [inputSnapshot_getLsbD, inputBitAt_resolve]
  by_cases hn : n.val < 32
  · simp only [hn, if_true]
  · simp only [hn, if_false]
    rfl

/-- Settles O31. -/
theorem getAllOutputsReadsBothBanks : Obligations.GetAllOutputsReadsBothBanks := by
  intro s
  exact ⟨_, exec_getAllOutputs s, outputSnapshot_getLsbD s (drawn s)⟩

/-! The banks (R122). -/

/-- Settles O32: the plan and the value written, each on either side of the boundary. -/
theorem banksAreIsolated : Obligations.BanksAreIsolated := by
  intro s n hb
  refine ⟨⟨_, exec_setLevel hb true, fun hn => ⟨?_, ?_⟩, fun hn => ⟨?_, ?_⟩, by simp⟩,
    ⟨_, exec_setOutputEnable hb true, fun hn => ⟨?_, ?_⟩, fun hn => ⟨?_, ?_⟩, by simp⟩⟩
  · rw [planOf_setLevel hb, bankOf_low hn, pinMask_low hn]; rfl
  · rw [complete_out]; exact setPinBit_low hn s.out
  · rw [planOf_setLevel hb, bankOf_high hn.not_gt, pinMask_high hn]; rfl
  · rw [complete_out]; exact setPinBit_high hn s.out
  · rw [planOf_setOutputEnable hb, bankOf_low hn, pinMask_low hn]; rfl
  · rw [complete_enable]; exact setPinBit_low hn s.enable
  · rw [planOf_setOutputEnable hb, bankOf_high hn.not_gt, pinMask_high hn]; rfl
  · rw [complete_enable]; exact setPinBit_high hn s.enable

/-! What a level operation can do (R123). -/

/-- The first two pin checks pass for a bonded pin, and fail otherwise (R85, R86). -/
theorem bonded_or_checkPin_error (p : Params) (pin : Nat) :
    (∃ n : Pin, n.val = pin ∧ p.bonded.get n = true) ∨ ∃ e, checkPin p pin = .error e := by
  cases h : checkPin p pin with
  | ok n => exact .inl ⟨n, checkPin_eq_ok h⟩
  | error e => exact .inr ⟨e, rfl⟩

theorem exec_of_checkPin_error {i : Instr} {pin : Nat} {s : State} {e : FaultReason} (hi : pinOf i = some pin)
    (h : checkPin s.params pin = .error e) : exec i s = .next (raiseFault e s) :=
  Decoder.exec_of_pinCheck_error hi (Decoder.pinCheck_of_checkPin_error i h)

/-- A level operation raises a fault, or completes with OUT and the draw counter the only other change. -/
theorem exec_levelOp (i : Instr) (s : State) (hi : isLevelOp i = true) :
    (∃ e, exec i s = .next (raiseFault e s)) ∨
      ∃ r x d, exec i s = .next (complete r { s with out := x, draws := d }) := by
  cases i with
  | setLevel pin level =>
    rcases bonded_or_checkPin_error s.params pin with ⟨n, rfl, hb⟩ | ⟨e, he⟩
    · exact .inr ⟨_, _, s.draws, exec_setLevel hb level⟩
    · exact .inl ⟨e, exec_of_checkPin_error rfl he⟩
  | getLevel pin =>
    rcases bonded_or_checkPin_error s.params pin with ⟨n, rfl, hb⟩ | ⟨e, he⟩
    · exact .inr ⟨_, s.out, _, exec_getLevel hb⟩
    · exact .inl ⟨e, exec_of_checkPin_error rfl he⟩
  | getAllInputs => exact .inr ⟨_, s.out, _, exec_getAllInputs s⟩
  | getAllOutputs => exact .inr ⟨_, s.out, _, exec_getAllOutputs s⟩
  | reset pin | setPullup pin en | setPulldown pin en | setInputEnable pin en | setOutputEnable pin en
  | setOpenDrain pin en => cases hi

/-- Settles O33. -/
theorem levelOperationsAreNotConfiguration : Obligations.LevelOperationsAreNotConfiguration := by
  intro i s t hi h
  rcases exec_levelOp i s hi with ⟨e, he⟩ | ⟨r, x, d, he⟩
  · cases he.symm.trans h
    simp
  · cases he.symm.trans h
    simp

/-! SET_LEVEL and ENABLE (R118). -/

/-- The callers are replaced whatever ENABLE holds. -/
theorem setCaller_withEnable (s : State) (e : Banked Word) (a : Agent) (c : Caller) :
    setCaller { s with enable := e } a c = { setCaller s a c with enable := e } := by
  rcases a with _ | _ | i <;> rfl

theorem complete_withEnable (r : Result) (s : State) (e : Banked Word) :
    complete r { s with enable := e } = { complete r s with enable := e } :=
  setCaller_withEnable s e s.mover (completed (callerOf s s.mover) r)

theorem raiseFault_withEnable (f : FaultReason) (s : State) (e : Banked Word) :
    raiseFault f { s with enable := e } = { raiseFault f s with enable := e } :=
  setCaller_withEnable { s with fault := s.fault.or (some ⟨f, s.mover, (callerOf s s.mover).index⟩) } e s.mover
    { callerOf s s.mover with halted := some (.faulted f) }

/-- Settles O34: the pin's checks decide between the level and a fault, and they read the parameters only. -/
theorem setLevelIgnoresOutputEnable : Obligations.SetLevelIgnoresOutputEnable := by
  intro s e pin level
  rcases bonded_or_checkPin_error s.params pin with ⟨n, rfl, hb⟩ | ⟨f, hf⟩
  · refine ⟨_, exec_setLevel hb level, ?_, fun m hm _ => ⟨by simp, by simp, ?_⟩⟩
    · rw [exec_setLevel (s := { s with enable := e }) hb level, ← complete_withEnable]
    · rw [Fin.ext hm, complete_out]
      exact setPinBit_getLsbD_self s.out n level
  · refine ⟨_, exec_of_checkPin_error rfl hf, ?_, fun m hm hb => ?_⟩
    · rw [exec_of_checkPin_error (s := { s with enable := e }) rfl hf, raiseFault_withEnable]
    · rw [← hm, checkPin_ok hb] at hf
      cases hf

/-! Two SET_LEVELs (R124). -/

/-- One SET_LEVEL after another leaves both pins' bits written, in that order. -/
theorem exec_setLevel_twice {s : State} {m n : Pin} (hm : s.params.bonded.get m = true)
    (hn : s.params.bonded.get n = true) (a b : Bool) :
    ∃ t u, exec (.setLevel m.val a) s = .next t ∧ exec (.setLevel n.val b) t = .next u ∧
      t.out = setPinBit s.out m a ∧ u.out = setPinBit (setPinBit s.out m a) n b := by
  refine ⟨_, _, exec_setLevel hm a, exec_setLevel ?_ b, by simp, by simp⟩
  rwa [complete_params]

/-- Settles O35. -/
theorem setLevelsCommute : Obligations.SetLevelsCommute := by
  intro s m n a b hm hn
  obtain ⟨t, u, ht, hu, -, huo⟩ := exec_setLevel_twice hm hn a b
  obtain ⟨t', u', ht', hu', hto', huo'⟩ := exec_setLevel_twice hn hm b a
  refine ⟨t, u, t', u', ht, hu, ht', hu', fun hne => ?_, fun heq => ?_⟩
  · rw [huo, huo', setPinBit_comm hne]
  · rw [huo, hto', heq, setPinBit_setPinBit]

end Sys2Proof.Proofs.BankAccess
end

section
/-! The exceptions family (60_exceptions.md): a failing check as a state, the refusal of a command word, and the fault
reasons with their causes. -/

namespace Sys2Proof.Proofs.Exceptions

open Sys2Proof Sys2Proof.Machine
open Sys2Proof.Proofs.MachineState (MoverBecomes raiseFault_moverBecomes refuseCommand_moverBecomes
  turnEffect_refused exec_answers faultRecordIsSticky)

/-- Settles O11: a failing check is recorded, and the micro-steps of a plan are legal. -/
theorem noOperationStopsTheMachine : Obligations.NoOperationStopsTheMachine :=
  fun i s => exec_answers i s

/-! An agent that stopped (R137, R141). -/

/-- An agent with a reason to have stopped may not move. -/
theorem enabled_of_halted {s : State} {a : Agent} {h : Halt} (hh : (callerOf s a).halted = some h) :
    enabled s a = false := by
  simp [enabled, callerEnabled, hh]

/-- Whether another agent may move does not turn on the moving agent's record. -/
theorem enabled_other_of_moverBecomes {s t : State} {c : Caller} (h : MoverBecomes s t c) {a : Agent}
    (ha : a ≠ s.mover) : enabled t a = enabled s a := by
  rw [enabled, enabled, h.agents, h.others a ha]

theorem not_ended_of_fault {s : State} (h : s.fault ≠ none) : ended s = false :=
  Bool.eq_false_iff.2 fun he => h (Memory.ended_no_failure he).1

theorem not_ended_of_refused {s : State} (h : s.refused = true) : ended s = false :=
  Bool.eq_false_iff.2 fun he => by simpa [h] using (Memory.ended_no_failure he).2

/-! A failing check (R137). -/

/-- FAULT takes the record of the moving agent where it is empty (R137, item 1). -/
theorem raiseFault_fault_eq_ite (e : FaultReason) (s : State) : (raiseFault e s).fault =
    if s.fault = none then some ⟨e, s.mover, (callerOf s s.mover).index⟩ else s.fault := by
  rw [raiseFault_fault]
  cases s.fault <;> rfl

theorem raiseFault_fault_ne_none (e : FaultReason) (s : State) : (raiseFault e s).fault ≠ none := by
  simp

/-- Raising a fault writes FAULT and the callers, and nothing else. -/
theorem raiseFault_frame (e : FaultReason) (s : State) : raiseFault e s =
    { s with
      fault := (raiseFault e s).fault, owner := (raiseFault e s).owner,
      contexts := (raiseFault e s).contexts } := by
  rw [raiseFault_fault]
  exact setCaller_eq { s with fault := s.fault.or _ } s.mover _

/-- No step changes a FAULT that is set (R37, R137). -/
theorem step_keeps_fault {s t : State} (hs : s.fault ≠ none) (h : step s = .next t) : t.fault = s.fault := by
  obtain ⟨r, hr⟩ := Option.ne_none_iff_exists'.1 hs
  obtain ⟨-, hkeep, -⟩ := faultRecordIsSticky.2 s t h
  rw [hr, hkeep r hr]

/-- Settles O37: the state after is `raiseFault`'s, and the stopped agent's record is the only one it writes. -/
theorem failedCheckStopsTheAgent : Obligations.FailedCheckStopsTheAgent := by
  refine ⟨fun i s e ha hp => ?_, fun s t => step_keeps_fault, fun s => not_ended_of_fault⟩
  have hm := raiseFault_moverBecomes ha e
  have hexec : exec i s = .next (raiseFault e s) := by rw [exec_eq_operate, hp, operate]
  exact ⟨raiseFault e s, hexec, raiseFault_fault_eq_ite e s, raiseFault_frame e s, hm.self,
    enabled_of_halted (by rw [hm.self]), not_ended_of_fault (raiseFault_fault_ne_none e s),
    fun a hne => ⟨hm.others a hne, enabled_other_of_moverBecomes hm hne⟩⟩

/-! A refused command word (R141). -/

theorem refuseCommand_sets_refused (e : CommandRefusal) (s : State) : (refuseCommand e s).refused = true := by
  simp [refuseCommand]

/-- Refusing a command word writes REFUSED and the callers, and nothing else. -/
theorem refuseCommand_frame (e : CommandRefusal) (s : State) : refuseCommand e s =
    { s with
      refused := true, owner := (refuseCommand e s).owner, contexts := (refuseCommand e s).contexts } :=
  setCaller_eq { s with refused := true } s.mover _

/-- No step clears REFUSED (R37, R141). -/
theorem step_keeps_refused {s t : State} (hs : s.refused = true) (h : step s = .next t) : t.refused = true :=
  (faultRecordIsSticky.2 s t h).1 hs

/-- Settles O38: both kinds of turn end in `refuseCommand`'s state. -/
theorem refusedWordStopsTheAgent : Obligations.RefusedWordStopsTheAgent := by
  refine ⟨fun s cw e ha hn hf hd => ?_, fun s t => step_keeps_refused⟩
  have hm := refuseCommand_moverBecomes ha e
  have hturn (tn : Turn) : takeTurn tn s = .next (refuseCommand e s) := Memory.takeTurn_of_refused tn hn hf hd
  have hr := refuseCommand_sets_refused e s
  exact ⟨refuseCommand e s, hturn (.operation s.mover), hturn (.microStep s.mover), hr, refuseCommand_frame e s,
    hm.self, enabled_of_halted (by rw [hm.self]), not_ended_of_refused hr, hm.others⟩

/-! The causes of the fault reasons (R138). -/

/-- The cause R138 gives a fault reason, for an operation that raises it; the reasons before it do not apply. -/
def FaultCause (p : Params) (i : Instr) : FaultReason → Prop
  | .pinOutOfRange pin => pinOf i = some pin ∧ 40 ≤ pin
  | .pinNotBonded pin => ∃ n : Pin, n.val = pin ∧ pinOf i = some pin ∧ p.bonded.get n = false
  | .ioMuxUnmapped pin => ∃ n : Pin, n.val = pin ∧ pinOf i = some pin ∧ p.bonded.get n = true ∧
      touchesIoMux i = true ∧ p.ioMuxOffset.get n = none

/-- A fault reason records the pin of the operation that raises it. -/
theorem FaultCause.pin {p : Params} {i : Instr} {e : FaultReason} (h : FaultCause p i e) :
    pinOf i = some (faultPin e) := by
  cases e with
  | pinOutOfRange pin => exact h.1
  | pinNotBonded pin =>
    obtain ⟨-, -, hi, -⟩ := h
    exact hi
  | ioMuxUnmapped pin =>
    obtain ⟨-, -, hi, -⟩ := h
    exact hi

/-- The checks of R98 on the pin of an operation are all the checks it makes (R97). -/
theorem checksPass_of_pinCheck_ok {p : Params} {i : Instr} {pin : Nat} {n : Pin} (hi : pinOf i = some pin)
    (h : Decoder.pinCheck p i pin = .ok n) : Encoding.ChecksPass p i := by
  intro pin' hi'
  cases hi.symm.trans hi'
  unfold Decoder.pinCheck at h
  split at h
  · obtain ⟨hn, hb, hm⟩ := checkMuxPin_eq_ok h
    exact ⟨n, hn, hb, fun _ => hm⟩
  · rename_i ht
    obtain ⟨hn, hb⟩ := checkPin_eq_ok h
    exact ⟨n, hn, hb, fun ht' => absurd ht' ht⟩

/-- An operation fails exactly where its pin checks do, so one without a pin never fails (R96, R97). -/
theorem planOf_eq_error {p : Params} {i : Instr} {e : FaultReason} :
    planOf p i = .error e ↔ ∃ pin, pinOf i = some pin ∧ Decoder.pinCheck p i pin = .error e := by
  refine ⟨fun h => ?_, fun ⟨pin, hi, hc⟩ => Decoder.planOf_of_pinCheck_error hi hc⟩
  have hfails : ¬ Encoding.ChecksPass p i := fun hpass => by
    obtain ⟨plan, hplan, -⟩ := hpass.plan
    cases h.symm.trans hplan
  cases hi : pinOf i with
  | none => exact absurd (fun pin hpin => by simp [hi] at hpin) hfails
  | some pin =>
    cases hc : Decoder.pinCheck p i pin with
    | ok n => exact absurd (checksPass_of_pinCheck_ok hi hc) hfails
    | error e' =>
      cases h.symm.trans (Decoder.planOf_of_pinCheck_error hi hc)
      exact ⟨pin, rfl, hc⟩

/-- The first two pin checks fail for their causes (R85, R86). -/
theorem faultCause_of_checkPin_error {p : Params} {i : Instr} {pin : Nat} {e : FaultReason}
    (hi : pinOf i = some pin) (h : checkPin p pin = .error e) : FaultCause p i e := by
  rcases checkPin_eq_error h with ⟨rfl, hpin⟩ | ⟨n, hn, rfl, hb⟩
  · exact ⟨hi, hpin⟩
  · exact ⟨n, hn, hi, hb⟩

/-- The pin checks of an operation fail for their causes (R85, R86, R92). -/
theorem faultCause_of_pinCheck_error {p : Params} {i : Instr} {pin : Nat} {e : FaultReason}
    (hi : pinOf i = some pin) (h : Decoder.pinCheck p i pin = .error e) : FaultCause p i e := by
  unfold Decoder.pinCheck at h
  split at h
  · rename_i ht
    rcases checkMuxPin_eq_error h with hc | ⟨n, hc, rfl, hm⟩
    · exact faultCause_of_checkPin_error hi hc
    · obtain ⟨hn, hb⟩ := checkPin_eq_ok hc
      exact ⟨n, hn, hi, hb, ht, by simpa [isMapped] using hm⟩
  · exact faultCause_of_checkPin_error hi h

/-- A cause makes the pin check of its reason the first that fails. -/
theorem FaultCause.pinCheck_error {p : Params} {i : Instr} {e : FaultReason} (h : FaultCause p i e) :
    Decoder.pinCheck p i (faultPin e) = .error e := by
  cases e with
  | pinOutOfRange pin => exact Decoder.pinCheck_of_checkPin_error i (Decoder.checkPin_outOfRange p h.2)
  | pinNotBonded pin =>
    obtain ⟨n, rfl, -, hb⟩ := h
    exact Decoder.pinCheck_of_checkPin_error i (Decoder.checkPin_notBonded hb)
  | ioMuxUnmapped pin =>
    obtain ⟨n, rfl, -, hb, ht, hm⟩ := h
    exact (if_pos ht).trans (Decoder.checkMuxPin_unmapped hb hm)

/-- The checks of an operation fail with a reason exactly where its cause holds (R138). -/
theorem planOf_eq_error_iff_faultCause {p : Params} {i : Instr} {e : FaultReason} :
    planOf p i = .error e ↔ FaultCause p i e :=
  planOf_eq_error.trans
    ⟨fun ⟨_, hi, hc⟩ => faultCause_of_pinCheck_error hi hc, fun h => ⟨faultPin e, h.pin, h.pinCheck_error⟩⟩

/-- The FAULT record an operation leaves where FAULT was empty: that of its failing check, if one fails (R137). -/
theorem exec_fault_record (i : Instr) {s : State} (hs : s.fault = none) : ∃ t, exec i s = .next t ∧
    ∀ r, t.fault = some r ↔
      FaultCause s.params i r.reason ∧ r = ⟨r.reason, s.mover, (callerOf s s.mover).index⟩ := by
  simp only [exec_eq_operate, ← planOf_eq_error_iff_faultCause]
  cases hp : planOf s.params i with
  | error e =>
    refine ⟨raiseFault e s, rfl, fun r => ?_⟩
    rw [raiseFault_fault, hs, Option.none_or, Option.some_inj]
    constructor
    · rintro rfl
      exact ⟨rfl, rfl⟩
    · rintro ⟨he, hr⟩
      cases he
      exact hr.symm
  | ok plan =>
    obtain ⟨u, got, hk, hrun⟩ := runSteps_answers (f := plan.finish) (planOf_legal hp).1 []
    exact ⟨_, hrun, fun r => by simp [hk.fault, hs]⟩

/-- Settles O58: the record is that of the failing check, and each check fails for its cause. -/
theorem faultReasonsAsTabled : Obligations.FaultReasonsAsTabled := by
  refine ⟨fun i s hs => ?_, fun pin => ⟨rfl, rfl, rfl⟩⟩
  obtain ⟨t, ht, hrecord⟩ := exec_fault_record i hs
  have hcause (e : FaultReason) :
      t.fault = some ⟨e, s.mover, (callerOf s s.mover).index⟩ ↔ FaultCause s.params i e :=
    (hrecord _).trans (and_iff_left rfl)
  refine ⟨t, ht, fun pin => hcause _, fun n => (hcause _).trans ?_, fun n => (hcause _).trans ?_, fun r hr => ?_⟩
  · simp [FaultCause, Fin.val_inj]
  · simp [FaultCause, Fin.val_inj]
  · obtain ⟨hc, he⟩ := (hrecord r).1 hr
    exact ⟨hr.trans (congrArg some he), hc.pin⟩

end Sys2Proof.Proofs.Exceptions
end

section
/-! The reset and hazards family (70_reset_and_hazards.md): the state at power-on, and the work a run uses up. -/

namespace Sys2Proof.Proofs.ResetAndHazards

open Sys2Proof Sys2Proof.Machine Sys2Proof.Proofs.MachineState Sys2Proof.Proofs.Memory

/-! The work left (R170, R171). -/

/-- Settles O55. -/
theorem everyTurnUsesUpWork : Obligations.EveryTurnUsesUpWork :=
  fun _ _ hs hen h => step_workLeft_lt (recordsOk_iff.1 hs) hen h

/-! Power-on (R155, R156). -/

theorem powerOnValue_eq_getD (given : Option Word) (i : Nat) :
    powerOnValue given i = given.getD (Config.powerOnWord i) := by
  cases given <;> rfl

/-- At power-on the agents are at the first of their commands, and one that does not exist has none. -/
theorem exists_callerOf_launch_eq_start (p : Params) (own : List CmdWord) (ctxs : List (List CmdWord))
    (sched : List Turn) (a : Agent) : ∃ commands, callerOf (State.launch p own ctxs sched) a = Caller.start commands := by
  rcases a with _ | _ | i
  · exact ⟨own, rfl⟩
  · exact ⟨[], rfl⟩
  · exact ⟨ctxs.getD i [], by simp [callerOf, State.launch, List.getD_eq_getElem?_getD, Option.getD_map]⟩

theorem map_commands_map_start (ctxs : List (List CmdWord)) : (ctxs.map Caller.start).map (·.commands) = ctxs := by
  simp [Function.comp_def, Caller.start]

/-- Settles O40. -/
theorem launchStartsEmpty : Obligations.LaunchStartsEmpty := by
  intro p own ctxs sched
  have hcaller (a : Agent) : let c := callerOf (State.launch p own ctxs sched) a
      c.results = [] ∧ c.index = 0 ∧ c.inFlight = none ∧ c.halted = none := by
    obtain ⟨commands, hc⟩ := exists_callerOf_launch_eq_start p own ctxs sched a
    rw [hc]
    exact ⟨rfl, rfl, rfl, rfl⟩
  refine ⟨rfl, rfl, rfl, rfl, map_commands_map_start ctxs, hcaller, ?_, ?_, fun n => ?_⟩
  · simp only [State.launch, powerOnValue_eq_getD]
  · simp only [State.launch, powerOnValue_eq_getD]
  · simp only [State.launch, Vector.get_ofFn, powerOnValue_eq_getD, and_self]

/-- A caller at its first command agrees with any state: it has completed nothing, is inside nothing and has not
stopped. -/
theorem callerAgrees_start (s : State) (commands : List CmdWord) : CallerAgrees s (Caller.start commands) where
  results := rfl
  index := Nat.zero_le _
  inside := nofun
  faulted := nofun
  refused := nofun

theorem launch_recordsAgree (p : Params) (own : List CmdWord) (ctxs : List (List CmdWord)) (sched : List Turn) :
    RecordsAgree (State.launch p own ctxs sched) where
  callers a _ := by
    obtain ⟨commands, hc⟩ := exists_callerOf_launch_eq_start p own ctxs sched a
    exact hc ▸ callerAgrees_start _ commands
  fault := nofun
  refused := nofun

/-- Settles O50: the reset state is a launched state too. -/
theorem recordsAgreeAtLaunch : Obligations.RecordsAgreeAtLaunch :=
  have hlaunch p own ctxs sched := recordsOk_iff.2 (launch_recordsAgree p own ctxs sched)
  ⟨hlaunch Config.tc1 [] [] [], hlaunch⟩

end Sys2Proof.Proofs.ResetAndHazards
end
